-- ==== Sys2Proof/Word.lean ====
section
/-! DEFINITION. The words and the small closed types of the block: bytes, operation and result words, the two-element
statistics arrays, the packet buffer's shape, symbols, synchronizer states, status names. -/

namespace Sys2Proof

/-- A byte; bit 7 is its most significant bit (00_scope.md R8). -/
abbrev Byte := BitVec 8

/-- An operation word `op[15:0]` (30_encoding.md R81). -/
abbrev OpWord := BitVec 16

/-- The result pins `r_data[39:0]` (30_encoding.md R85, R87). -/
abbrev ResultWord := BitVec 40

/-- A two-element array indexed by symbol class (00_scope.md R10, 20_memory.md R50). -/
structure PerClass (α : Type) where
  /-- the element of class 0, the LOW symbol -/
  class0 : α
  /-- the element of class 1, the HIGH symbol -/
  class1 : α
  deriving DecidableEq, Repr, Inhabited

/-- The packet buffer's five bytes, index 0 to 4 (10_state.md R25, 20_memory.md R59). -/
structure Packet where
  b0 : Byte
  b1 : Byte
  b2 : Byte
  b3 : Byte
  b4 : Byte
  deriving DecidableEq, Repr, Inhabited

/-- What a pulse duration encodes (30_encoding.md R70). -/
inductive Symbol where
  | high
  | low
  | invalid
  deriving DecidableEq, Repr

/-- The three states of the synchronizer (10_state.md R22); the fourth value of a 2-bit register cannot be written down
(93_implementation_defined.md U7). -/
inductive SyncState where
  | idle
  | searching
  | acquiring
  deriving DecidableEq, Repr

/-- The names of the status codes (60_exceptions.md R181). -/
inductive Status where
  | ok
  | illegal
  | div0
  deriving DecidableEq, Repr

end Sys2Proof
end

