-- ==== Sys2Proof/Config.lean ====
section
/-! DEFINITION. What is fixed for one machine: the parameters of 00_scope.md R6 with the spec's defaults, the fixed
constants of the same table, and the free values. -/

namespace Sys2Proof

namespace Config

/-- SYNC_MASK: the bits of the history that the pattern test looks at. -/
def syncMask : Byte := 0x07#8

/-- SYNC_PATTERN: the value of the masked history that marks the start of a frame. -/
def syncPattern : Byte := 0x06#8

/-- HIST_INIT: what the history is loaded with on leaving IDLE. -/
def histInit : Byte := 0xFF#8

/-- CRC_POLY: the feedback constant of the CRC. -/
def crcPoly : Byte := 0x31#8

/-- PKT_BYTES: the length of the packet buffer (`Packet` has a field for each byte). -/
def pktBytes : Nat := 5

/-- CRC_BYTES: the bytes covered by the CRC, packet bytes 0 to 3 (`crc8From` takes them one by one). -/
def crcBytes : Nat := 4

/-- TICK_US: the tick in microseconds in the reference hardware; informative, no rule uses it (60_exceptions.md R194). -/
def tickUs : Nat := 25

end Config

/-- The `parameter` rows of 00_scope.md R6, each with the default shown there (log 1, 9, 11, 12). -/
structure Params where
  /-- HI_MIN: lowest duration classified HIGH -/
  hiMin : Nat := 13
  /-- HI_MAX: highest duration classified HIGH -/
  hiMax : Nat := 27
  /-- LO_MIN: lowest duration classified LOW -/
  loMin : Nat := 52
  /-- LO_MAX: highest duration classified LOW -/
  loMax : Nat := 68
  /-- DW: the width of the duration operand -/
  dw : Nat := 8
  /-- SUMW: the width of each running sum -/
  sumw : Nat := 16
  /-- CNTW: the width of each running count -/
  cntw : Nat := 8
  /-- CRC_INIT: start value of the running CRC. PRESUMED by the spec itself (43_crc.md R150, G1; log 9). -/
  crcInit : Byte := 0x00#8
  /-- MEAN_MUTATES: STMEAN overwrites the sums with the means -/
  meanMutates : Bool := true
  deriving DecidableEq, Repr

namespace Params

/-- STAT_MIN_INIT = LO_MAX + 1, the value both running minima take at a statistics reset (00_scope.md R6). -/
def statMinInit (c : Params) : Nat := c.loMax + 1

/-- The constraints of 00_scope.md R6 on the parameters. -/
abbrev Admissible (c : Params) : Prop :=
  c.hiMin ≤ c.hiMax ∧ c.hiMax < c.loMin ∧ c.loMin ≤ c.loMax ∧ c.loMax < 2 ^ c.dw - 1 ∧ c.loMax ≤ 254 ∧
    40 * c.loMax < 2 ^ c.sumw ∧ 7 ≤ c.dw ∧ c.dw ≤ 12 ∧ 12 ≤ c.sumw ∧ 6 ≤ c.cntw

end Params

namespace Config

/-- The configuration the machine runs with: every parameter at the spec's default (log 1). -/
abbrev current : Params := {}

end Config

/-- The values a cycle with `rst = 1` leaves open: the registers that 10_state.md R31 calls unspecified and the outputs of
that cycle (93_implementation_defined.md U1, U6), with sums of `sumw` bits. -/
structure Unspecified (sumw : Nat) where
  history : Byte
  packet : Packet
  byteIdx : BitVec 3
  bitIdx : BitVec 3
  statMin : PerClass Byte
  statMax : PerClass Byte
  statSum : PerClass (BitVec sumw)
  rData : ResultWord
  rStatus : BitVec 2
  deriving DecidableEq, Repr, Inhabited

/-- A FREE VALUE: what the n-th reset cycle leaves in the unspecified registers and outputs. It has no body, so a claim
about it is a claim about every value. DESIGN CHOICE: it depends on n alone, not on the cycle's other pins (log 3, 18). -/
opaque Config.unspecifiedAtReset (sumw : Nat) : Nat → Unspecified sumw

/-- A FREE VALUE: the 16-bit field of a mean of STMEAN that does not fit in it, for which 42_stats.md R142 states none. It has
no body (log 12). -/
opaque Config.meanBeyondField : Nat → BitVec 16

end Sys2Proof
end

