-- ==== Sys2Proof/Machine/State.lean ====
section
/-! DEFINITION. The state of the machine as plain data: the ten registers of 10_state.md R20, the port of 30_encoding.md
R87, and one counter of the model's own. -/

namespace Sys2Proof.Machine

/-- The complete state of the block: the ten registers of 10_state.md R20 and nothing else. The widths of the sums and counts
are SUMW and CNTW (00_scope.md R6). -/
structure Regs (sumw cntw : Nat) where
  /-- `state`, the synchronizer's control register (R22) -/
  state : SyncState
  /-- `acquired`, the block's only flag (R23) -/
  acquired : Bool
  /-- `history`, the sliding bit window (R24) -/
  history : Byte
  /-- `packet[0..4]` (R25) -/
  packet : Packet
  /-- `byte_idx` (R26) -/
  byteIdx : BitVec 3
  /-- `bit_idx` (R26) -/
  bitIdx : BitVec 3
  /-- `stat_min[0..1]` (R28) -/
  statMin : PerClass Byte
  /-- `stat_max[0..1]` (R28) -/
  statMax : PerClass Byte
  /-- `stat_sum[0..1]` (R28) -/
  statSum : PerClass (BitVec sumw)
  /-- `stat_cnt[0..1]` (R28) -/
  statCnt : PerClass (BitVec cntw)
  deriving DecidableEq, Repr

/-- The registers of the block with the parameters `c`. -/
abbrev Regs.At (c : Params) : Type := Regs c.sumw c.cntw

/-- The input pins in one clock cycle (30_encoding.md R87). -/
structure Cycle where
  rst : Bool
  opValid : Bool
  op : OpWord
  deriving DecidableEq, Repr

/-- The machine: the block's registers, the cycles its clients still present, the output pins of the last cycle, and the
counter that picks free values (log 4, 5), for sums and counts of these widths. -/
structure State.Of (sumw cntw : Nat) where
  regs : Regs sumw cntw
  /-- the clock cycles to come, oldest first: the merged stream of both clients -/
  inputs : List Cycle
  /-- `r_data[39:0]` in the last cycle -/
  rData : ResultWord
  /-- `r_status[1:0]` in the last cycle -/
  rStatus : BitVec 2
  /-- the MODEL's own counter: how many reset cycles have taken free values -/
  freeCount : Nat
  deriving DecidableEq, Repr

/-- The machine with the parameters `c`. -/
abbrev State.At (c : Params) : Type := State.Of c.sumw c.cntw

/-- The machine at the spec's default widths, SUMW = 16 and CNTW = 8: `State.At Config.current` (log 1, 12). -/
abbrev State : Type := State.Of 16 8

/-- Why the machine stops. -/
inductive Fault where
  /-- Raised by ACCEPT alone: a valid sample in ACQUIRING with `byte_idx` outside 0 to 4, an index of the packet space that
  20_memory.md R51 says no rule uses. Safe: no reachable state has it (10_state.md R33; log 8). -/
  | packetIndexOutOfRange
  deriving DecidableEq, Repr

/-- Why an instruction has no meaning. -/
inductive Refusal where
  /-- Raised by `exec` for an instruction that is not modelled. Safe: nothing is claimed of it. No arm raises it. -/
  | notModelled (mnemonic : String)
  deriving DecidableEq, Repr

/-- The machine right after reset (10_state.md R31): `state` IDLE, `acquired` 0, both counts 0. Every other register is
unspecified there. DESIGN CHOICE: this one state holds zeros in them (log 2); `resetRegs` has the whole family. -/
def State.reset : State where
  regs :=
    { state := .idle
      acquired := false
      history := 0x00#8
      packet := ⟨0x00#8, 0x00#8, 0x00#8, 0x00#8, 0x00#8⟩
      byteIdx := 0#3
      bitIdx := 0#3
      statMin := ⟨0x00#8, 0x00#8⟩
      statMax := ⟨0x00#8, 0x00#8⟩
      statSum := ⟨0#16, 0#16⟩
      statCnt := ⟨0#8, 0#8⟩ }
  inputs := []
  rData := 0#40
  rStatus := 0#2
  freeCount := 0

end Sys2Proof.Machine
end

