-- ==== Sys2Proof/Machine/Ops.lean ====
section
/-! DEFINITION. The named operations over the registers and the packet space: reads and writes by index, the synchronization
reset and leaving it, the reset of the `rst` pin, and answering on the result port. -/

namespace Sys2Proof

/-- The element of class `c`; class 1 is `true` (00_scope.md R10). -/
def PerClass.get {α : Type} (a : PerClass α) (c : Bool) : α := if c then a.class1 else a.class0

/-- The array with the element of class `c` replaced. -/
def PerClass.set {α : Type} (a : PerClass α) (c : Bool) (v : α) : PerClass α :=
  if c then { a with class1 := v } else { a with class0 := v }

/-- `PktRead(i)` (20_memory.md R51). -/
def Packet.read (p : Packet) : Fin 5 → Byte
  | 0 => p.b0
  | 1 => p.b1
  | 2 => p.b2
  | 3 => p.b3
  | 4 => p.b4

/-- `PktWrite(i, v)` (20_memory.md R51). -/
def Packet.write (p : Packet) (i : Fin 5) (v : Byte) : Packet :=
  match i with
  | 0 => { p with b0 := v }
  | 1 => { p with b1 := v }
  | 2 => { p with b2 := v }
  | 3 => { p with b3 := v }
  | 4 => { p with b4 := v }

/-- The buffer of all zeros that a sync match leaves (40_accept.md R108). -/
def Packet.zero : Packet := ⟨0x00#8, 0x00#8, 0x00#8, 0x00#8, 0x00#8⟩

namespace Machine

/-- The index that `byte_idx` stands for in the packet space; 5, 6 and 7 name no byte (20_memory.md R51). -/
def packetIndex (b : BitVec 3) : Option (Fin 5) := if h : b.toNat < 5 then some ⟨b.toNat, h⟩ else none

variable {sw cw : Nat}

namespace Regs

/-- `raise SyncReset`, the block's one trap-like event: `state <- IDLE` and nothing else (40_accept.md R103,
60_exceptions.md R183). -/
def syncReset (r : Regs sw cw) : Regs sw cw := { r with state := .idle }

/-- Leaving the reset: `history <- 0xFF`, `state <- SEARCHING` (40_accept.md R105, 60_exceptions.md R185). -/
def leaveIdle (r : Regs sw cw) : Regs sw cw := { r with history := Config.histInit, state := .searching }

/-- Sets the acquired flag and ends the acquisition (40_accept.md R113). -/
def completeFrame (r : Regs sw cw) : Regs sw cw := { r with acquired := true, state := .idle }

end Regs

/-- The registers after reset, for every choice of the values 10_state.md R31 leaves unspecified. -/
def resetRegs (u : Unspecified sw) : Regs sw cw where
  state := .idle
  acquired := false
  history := u.history
  packet := u.packet
  byteIdx := u.byteIdx
  bitIdx := u.bitIdx
  statMin := u.statMin
  statMax := u.statMax
  statSum := u.statSum
  statCnt := ⟨0, 0⟩

/-- A cycle with `rst = 1` that leaves the values `u` open (70_reset_and_hazards.md R200). -/
def State.Of.resetWith (u : Unspecified sw) (s : State.Of sw cw) : State.Of sw cw :=
  { s with regs := resetRegs u, rData := u.rData, rStatus := u.rStatus }

/-- A cycle with `rst = 1`: the unspecified values are the next free ones (log 3). -/
def State.Of.takeReset (s : State.Of sw cw) : State.Of sw cw :=
  { s.resetWith (Config.unspecifiedAtReset sw s.freeCount) with freeCount := s.freeCount + 1 }

end Machine

end Sys2Proof
end

