-- ==== Sys2Proof/Machine/Flags.lean ====
section
/-! DEFINITION. The acquired flag as the consumer sees it, and the status codes with the answer on the result port. The block
has no arithmetic flags (10_state.md R23). -/

namespace Sys2Proof

/-- `r_status[1:0]` (60_exceptions.md R181); 0b11 is never returned. -/
def Status.code : Status → BitVec 2
  | .ok => 0b00#2
  | .illegal => 0b01#2
  | .div0 => 0b10#2

namespace Machine

variable {sw cw : Nat}

/-- `acquired <- 0`, the clearing half of the read-and-clear (41_handoff.md R130). -/
def Regs.clearAcquired (r : Regs sw cw) : Regs sw cw := { r with acquired := false }

/-- A flag as a result word: bit 0 (30_encoding.md R85). -/
def flagWord (b : Bool) : ResultWord := (BitVec.ofBool b).setWidth 40

/-- The state after an operation that leaves the registers `r` and answers `data` with status `st` in the same cycle
(30_encoding.md R85, R87). -/
def State.Of.respond (s : State.Of sw cw) (r : Regs sw cw) (data : ResultWord) (st : Status) : State.Of sw cw :=
  { s with regs := r, rData := data, rStatus := st.code }

/-- The outcome of an operation that completes. -/
def answer (s : State.Of sw cw) (r : Regs sw cw) (data : ResultWord) (st : Status) :
    Host.Outcome (State.Of sw cw) Fault Refusal :=
  .next (s.respond r data st)

end Machine

end Sys2Proof
end

