-- ==== Sys2Proof/Machine/Operands.lean ====
section
/-! DEFINITION. The block's one operand, ACCEPT's duration: how it classifies, the bit it carries, and how a driver must
bring a longer measurement into it. -/

namespace Sys2Proof

/-- `classify(d)` (40_accept.md R101): unsigned, inclusive comparisons against the four thresholds. -/
def classifyAt (c : Params) (d : Nat) : Symbol :=
  if c.hiMin ≤ d ∧ d ≤ c.hiMax then .high
  else if c.loMin ≤ d ∧ d ≤ c.loMax then .low
  else .invalid

/-- The classifier of the configured machine. -/
def classify (d : Nat) : Symbol := classifyAt Config.current d

/-- The bit and class of a symbol: HIGH is 1, LOW is 0, INVALID has none (40_accept.md R102). -/
def Symbol.bit? : Symbol → Option Bool
  | .high => some true
  | .low => some false
  | .invalid => none

/-- What a driver submits for a measurement: saturated at `2^DW - 1`, never truncated (70_reset_and_hazards.md R210). -/
def saturate (dw measured : Nat) : Nat := min measured (2 ^ dw - 1)

end Sys2Proof
end

