-- ==== Sys2Proof/Machine/Stats.lean ====
section
/-! DEFINITION. The timing statistics: their reset and fold inside ACCEPT (40_accept.md R108, R115), and the read-outs STMIN,
STMAX, STMEAN (42_stats.md). -/

namespace Sys2Proof.Machine

variable {sw cw : Nat}

namespace Regs

/-- Step 3 of a sync match: both minima one above LO_MAX, maxima, sums and counts zero (40_accept.md R108). -/
def resetStats (c : Params) (r : Regs sw cw) : Regs sw cw :=
  { r with
    statMin := ⟨BitVec.ofNat 8 c.statMinInit, BitVec.ofNat 8 c.statMinInit⟩
    statMax := ⟨0x00#8, 0x00#8⟩
    statSum := ⟨0, 0⟩
    statCnt := ⟨0, 0⟩ }

/-- `fold(d, b)` (40_accept.md R115): the sample's own class only; sum and count wrap at SUMW and CNTW bits. -/
def fold (d : Nat) (b : Bool) (r : Regs sw cw) : Regs sw cw :=
  { r with
    statMin := if d < (r.statMin.get b).toNat then r.statMin.set b (BitVec.ofNat 8 d) else r.statMin
    statMax := if (r.statMax.get b).toNat < d then r.statMax.set b (BitVec.ofNat 8 d) else r.statMax
    statSum := r.statSum.set b (r.statSum.get b + BitVec.ofNat sw d)
    statCnt := r.statCnt.set b (r.statCnt.get b + 1) }

/-- The mean of class `c`, or none when the class has no sample: no division is performed then (42_stats.md R142,
60_exceptions.md R188). -/
def mean? (r : Regs sw cw) (c : Bool) : Option Nat :=
  if r.statCnt.get c = 0 then none else some ((r.statSum.get c).toNat / (r.statCnt.get c).toNat)

/-- `stat_sum[c] <- mean[c]` for a class that has a mean; the sum of the other kind stands (42_stats.md R142). -/
def storeMean (r : Regs sw cw) (c : Bool) : Regs sw cw :=
  match r.mean? c with
  | none => r
  | some m => { r with statSum := r.statSum.set c (BitVec.ofNat sw m) }

end Regs

/-- `v[1] || v[0]` in the low 16 bits (42_stats.md R140, R141; 30_encoding.md R85). -/
def bytePairWord (a : PerClass Byte) : ResultWord := (a.class1 ++ a.class0 : BitVec 16).setWidth 40

/-- `zext_16(mean)`. A mean of more than 16 bits, which only an unreachable state of a block with SUMW above 16 has, has no
field stated: it is a free value (log 12). -/
def meanField (m : Nat) : BitVec 16 := if m < 2 ^ 16 then BitVec.ofNat 16 m else Config.meanBeyondField m

/-- `dz[1] || dz[0] || zext_16(mean[1]) || zext_16(mean[0])` in the low 34 bits; the field of a class without a mean is 0
(42_stats.md R142, 30_encoding.md R85; log 10). -/
def meanWord (m1 m0 : Option Nat) : ResultWord :=
  (BitVec.ofBool m1.isNone ++ BitVec.ofBool m0.isNone ++ meanField (m1.getD 0) ++ meanField (m0.getD 0) :
    BitVec 34).setWidth 40

/-- STMIN (42_stats.md R140). -/
def execStmin (s : State.Of sw cw) : Host.Outcome (State.Of sw cw) Fault Refusal :=
  answer s s.regs (bytePairWord s.regs.statMin) .ok

/-- STMAX (42_stats.md R141). -/
def execStmax (s : State.Of sw cw) : Host.Outcome (State.Of sw cw) Fault Refusal :=
  answer s s.regs (bytePairWord s.regs.statMax) .ok

/-- STMEAN under the parameter MEAN_MUTATES of `c` (42_stats.md R142, and R144 for the pure form). -/
def execStmeanAt (c : Params) (s : State.Of sw cw) : Host.Outcome (State.Of sw cw) Fault Refusal :=
  let m1 := s.regs.mean? true
  let m0 := s.regs.mean? false
  answer s (if c.meanMutates then (s.regs.storeMean false).storeMean true else s.regs) (meanWord m1 m0)
    (if m1.isNone || m0.isNone then .div0 else .ok)

/-- STMEAN of the configured machine. -/
def execStmean (s : State) : Host.Outcome State Fault Refusal := execStmeanAt Config.current s

end Sys2Proof.Machine
end

