-- ==== Sys2Proof/Machine/Accept.lean ====
section
/-! DEFINITION. ACCEPT: classifier, synchronizer, assembler, fold (40_accept.md R100 to R115), each step of the rule a
definition of its own and `acceptRegs` their composition. -/

namespace Sys2Proof.Machine

variable {sw cw : Nat}

namespace Regs

/-- `history <- ((history << 1) | b) & 0xFF` (R106). -/
def shiftHistory (b : Bool) (r : Regs sw cw) : Regs sw cw :=
  { r with history := r.history <<< 1 ||| (BitVec.ofBool b).setWidth 8 }

/-- The pattern test on the low three bits of the history (R107). -/
def patternMatches (r : Regs sw cw) : Bool := r.history &&& Config.syncMask == Config.syncPattern

/-- A sync match: packet zeroed, position (0, 1), statistics reset, this sample folded, ACQUIRING (R108). -/
def syncMatch (c : Params) (d : Nat) (b : Bool) (r : Regs sw cw) : Regs sw cw :=
  { fold d b (resetStats c { r with packet := Packet.zero, byteIdx := 0, bitIdx := 1 }) with state := .acquiring }

/-- The SEARCHING step: shift, test, and on a match start the frame (R106 to R109). -/
def search (c : Params) (d : Nat) (b : Bool) (r : Regs sw cw) : Regs sw cw :=
  let r := r.shiftHistory b
  if r.patternMatches then r.syncMatch c d b else r

/-- `packet[i] <- ((packet[i] << 1) | b) & 0xFF` (R111). -/
def storeBit (i : Fin 5) (b : Bool) (r : Regs sw cw) : Regs sw cw :=
  { r with packet := r.packet.write i (r.packet.read i <<< 1 ||| (BitVec.ofBool b).setWidth 8) }

/-- A byte is full: the first bit of the next one comes next (R113). -/
def nextByte (r : Regs sw cw) : Regs sw cw := { r with bitIdx := 0, byteIdx := r.byteIdx + 1 }

/-- The next position, and the end of the frame after the fifth byte (R113); `byte_idx` is then left at 5. -/
def advance (r : Regs sw cw) : Regs sw cw :=
  if r.bitIdx.toNat + 1 = 8 then
    if r.nextByte.byteIdx = 5 then r.nextByte.completeFrame else r.nextByte
  else { r with bitIdx := r.bitIdx + 1 }

/-- The ACQUIRING step: bit store at the old `byte_idx`, fold, advance (R111 to R113). An index that names no byte is a
fault (log 8). -/
def assemble (d : Nat) (b : Bool) (r : Regs sw cw) : Except Fault (Regs sw cw) :=
  match packetIndex r.byteIdx with
  | none => .error .packetIndexOutOfRange
  | some i => .ok (advance (fold d b (storeBit i b r)))

/-- A valid sample of bit `b`, by state; a sample that leaves IDLE is searched in the same operation (R104, R105). -/
def acceptBit (c : Params) (d : Nat) (b : Bool) (r : Regs sw cw) : Except Fault (Regs sw cw) :=
  match r.state with
  | .idle => .ok (r.leaveIdle.search c d b)
  | .searching => .ok (r.search c d b)
  | .acquiring => r.assemble d b

end Regs

/-- ACCEPT on the registers: classification first, the state only for a valid symbol (R100, R103, R104). -/
def acceptRegs (c : Params) (d : Nat) (r : Regs sw cw) : Except Fault (Regs sw cw) :=
  match (classifyAt c d).bit? with
  | none => .ok r.syncReset
  | some b => r.acceptBit c d b

/-- ACCEPT with the thresholds of `c`: no return value, status OK (R100). -/
def execAcceptAt (c : Params) (d : Nat) (s : State.Of sw cw) : Host.Outcome (State.Of sw cw) Fault Refusal :=
  match acceptRegs c d s.regs with
  | .ok r => answer s r 0 .ok
  | .error f => .fault f

/-- ACCEPT of the configured machine. -/
def execAccept (d : Nat) (s : State) : Host.Outcome State Fault Refusal := execAcceptAt Config.current d s

end Sys2Proof.Machine
end

