-- ==== Sys2Proof/Machine/Crc.lean ====
section
/-! DEFINITION. The CRC-8 validator (43_crc.md). -/

namespace Sys2Proof

/-- One of the 8 steps of a byte: the mix bit from the values before the shift, then the shift, then the conditional
exclusive-or (43_crc.md R150). -/
def crcStep (crc byte : Byte) : Byte :=
  if (crc ^^^ byte) &&& 0x80#8 = 0 then crc <<< 1 else crc <<< 1 ^^^ Config.crcPoly

/-- The first `k` steps of a byte, its bit 7 first; the byte shifts left after each step. -/
def crcSteps : Nat → Byte → Byte → Byte
  | 0, crc, _ => crc
  | k + 1, crc, byte => crcSteps k (crcStep crc byte) (byte <<< 1)

/-- `crc8(b0, b1, b2, b3)` from the start value `init` (43_crc.md R150). -/
def crc8From (init b0 b1 b2 b3 : Byte) : Byte :=
  crcSteps 8 (crcSteps 8 (crcSteps 8 (crcSteps 8 init b0) b1) b2) b3

/-- `crc8` with the configured CRC_INIT (log 9). -/
def crc8 (b0 b1 b2 b3 : Byte) : Byte := crc8From Config.current.crcInit b0 b1 b2 b3

namespace Machine

variable {sw cw : Nat}

/-- Whether byte 4 is the checksum of bytes 0 to 3 (43_crc.md R151). -/
def checksumHolds (c : Params) (p : Packet) : Bool :=
  crc8From c.crcInit (p.read 0) (p.read 1) (p.read 2) (p.read 3) == p.read 4

/-- VALID with the CRC_INIT of `c`; status OK whatever the verdict (43_crc.md R151). -/
def execValidAt (c : Params) (s : State.Of sw cw) : Host.Outcome (State.Of sw cw) Fault Refusal :=
  answer s s.regs (flagWord (checksumHolds c s.regs.packet)) .ok

/-- VALID of the configured machine. -/
def execValid (s : State) : Host.Outcome State Fault Refusal := execValidAt Config.current s

end Machine

end Sys2Proof
end

