-- ==== Sys2Proof/Machine/Fields.lean ====
section
/-! DEFINITION. The field decoder: ID, HUM, TEMP, TEMPTXT, the text of a temperature, and the same fields on a PKT snapshot
(44_fields.md). -/

namespace Sys2Proof

/-- `(packet[0] << 4) | (packet[1] >> 4)`, 12 bits (44_fields.md R160). -/
def Packet.sensorId (p : Packet) : BitVec 12 :=
  (p.read 0).setWidth 12 <<< 4 ||| ((p.read 1) >>> 4).setWidth 12

/-- The raw humidity byte (44_fields.md R161). -/
def Packet.humidity (p : Packet) : Byte := p.read 3

/-- `((packet[1] & 0x07) << 8) | packet[2]`, 0 to 2047 (44_fields.md R162). -/
def Packet.magnitude (p : Packet) : BitVec 11 :=
  ((p.read 1) &&& 0x07#8).setWidth 11 <<< 8 ||| (p.read 2).setWidth 11

/-- Bit 3 of `packet[1]`: the temperature is negative (44_fields.md R162). -/
def Packet.negative (p : Packet) : Bool := (p.read 1) &&& 0x08#8 != 0

/-- The temperature in tenths of a degree: sign and magnitude, not two's complement (44_fields.md R162). -/
def Packet.temperature (p : Packet) : Int := if p.negative then -(p.magnitude.toNat : Int) else p.magnitude.toNat

/-- `W`, the whole part, of the magnitude before any negation (44_fields.md R163). -/
def Packet.wholePart (p : Packet) : Nat := p.magnitude.toNat / 10

/-- `F`, the fraction digit (44_fields.md R163). -/
def Packet.fractionDigit (p : Packet) : Nat := p.magnitude.toNat % 10

/-- The decimal digits of a number below 1000, no leading zeros, at least one digit (44_fields.md R164). -/
def decimalDigits (n : Nat) : List Nat :=
  if n < 10 then [n] else if n < 100 then [n / 10, n % 10] else [n / 100, n / 10 % 10, n % 10]

/-- ASCII codes of the characters of a temperature text (44_fields.md R164). -/
def asciiMinus : Byte := 0x2D#8
def asciiPoint : Byte := 0x2E#8
def asciiDigit (n : Nat) : Byte := 0x30#8 + BitVec.ofNat 8 n

/-- `render(sign, W, F)` as ASCII codes, for the software around the block (44_fields.md R164). -/
def render (sign : Bool) (whole fraction : Nat) : List Byte :=
  (if sign then [asciiMinus] else []) ++ (decimalDigits whole).map asciiDigit ++ [asciiPoint, asciiDigit fraction]

/-! The same fields of the 40-bit result of PKT (44_fields.md R165). -/

/-- `id = p[39:28]` -/
def snapshotId (p : ResultWord) : BitVec 12 := p.extractLsb' 28 12
/-- `sign = p[27]` -/
def snapshotSign (p : ResultWord) : Bool := p.getLsbD 27
/-- `mag = p[26:16]` -/
def snapshotMagnitude (p : ResultWord) : BitVec 11 := p.extractLsb' 16 11
/-- `hum = p[15:8]` -/
def snapshotHumidity (p : ResultWord) : Byte := p.extractLsb' 8 8
/-- the checksum byte, `p[7:0]` -/
def snapshotChecksum (p : ResultWord) : Byte := p.extractLsb' 0 8

namespace Machine

variable {sw cw : Nat}

/-- The 16-bit two's complement number at the port (44_fields.md R162, 30_encoding.md R85). -/
def temperatureWord (t : Int) : ResultWord := (BitVec.ofInt 16 t).setWidth 40

/-- `sign || zext_8(W) || zext_4(F)` in the low 13 bits (44_fields.md R163, 30_encoding.md R85). -/
def textWord (sign : Bool) (whole fraction : Nat) : ResultWord :=
  (BitVec.ofBool sign ++ BitVec.ofNat 8 whole ++ BitVec.ofNat 4 fraction : BitVec 13).setWidth 40

/-- ID (44_fields.md R160). -/
def execId (s : State.Of sw cw) : Host.Outcome (State.Of sw cw) Fault Refusal :=
  answer s s.regs (s.regs.packet.sensorId.setWidth 40) .ok

/-- HUM (44_fields.md R161). -/
def execHum (s : State.Of sw cw) : Host.Outcome (State.Of sw cw) Fault Refusal :=
  answer s s.regs (s.regs.packet.humidity.setWidth 40) .ok

/-- TEMP (44_fields.md R162). -/
def execTemp (s : State.Of sw cw) : Host.Outcome (State.Of sw cw) Fault Refusal :=
  answer s s.regs (temperatureWord s.regs.packet.temperature) .ok

/-- TEMPTXT (44_fields.md R163). -/
def execTemptxt (s : State.Of sw cw) : Host.Outcome (State.Of sw cw) Fault Refusal :=
  answer s s.regs
    (textWord s.regs.packet.negative s.regs.packet.wholePart s.regs.packet.fractionDigit) .ok

end Machine

end Sys2Proof
end

