-- ==== Sys2Proof/Machine/Handoff.lean ====
section
/-! DEFINITION. The hand-off to the consumer: ACQ and PKT (41_handoff.md). -/

namespace Sys2Proof.Machine

variable {sw cw : Nat}

/-- `packet[0] || packet[1] || packet[2] || packet[3] || packet[4]` (41_handoff.md R131, 30_encoding.md R72). -/
def packetWord (p : Packet) : ResultWord := p.b0 ++ p.b1 ++ p.b2 ++ p.b3 ++ p.b4

/-- ACQ: the old flag is the result, and the flag is cleared, in one step (41_handoff.md R130). -/
def execAcq (s : State.Of sw cw) : Host.Outcome (State.Of sw cw) Fault Refusal :=
  answer s s.regs.clearAcquired (flagWord s.regs.acquired) .ok

/-- PKT (41_handoff.md R131). -/
def execPkt (s : State.Of sw cw) : Host.Outcome (State.Of sw cw) Fault Refusal :=
  answer s s.regs (packetWord s.regs.packet) .ok

end Sys2Proof.Machine
end

