-- ==== Sys2Proof/Machine/System.lean ====
section
/-! DEFINITION. NOP and the reserved operation words (45_system.md). -/

namespace Sys2Proof.Machine

variable {sw cw : Nat}

/-- NOP: nothing, result 0, status OK (45_system.md R170). -/
def execNop (s : State.Of sw cw) : Host.Outcome (State.Of sw cw) Fault Refusal := answer s s.regs 0 .ok

/-- A word that matches no row: nothing is written, result 0, status ILLEGAL, and the block goes on (45_system.md R171; log
7). What the word is does not matter. -/
def execReserved (_w : OpWord) (s : State.Of sw cw) : Host.Outcome (State.Of sw cw) Fault Refusal := answer s s.regs 0 .illegal

end Sys2Proof.Machine
end

