-- ==== Sys2Proof/Syntax.lean ====
section
/-! DEFINITION. The instructions: one constructor per row of spec/opcode_table.json (30_encoding.md R80, R82). -/

namespace Sys2Proof

/-- The operations of the block. No operation but ACCEPT has an operand (30_encoding.md R83). -/
inductive Instr where
  /-- NOP: no operation (45_system.md R170). -/
  | nop
  /-- ACCEPT d: submit one pulse duration in ticks, unsigned (40_accept.md R100). -/
  | accept (d : Nat)
  /-- ACQ: read and clear the acquired flag (41_handoff.md R130). -/
  | acq
  /-- PKT: read the whole packet buffer (41_handoff.md R131). -/
  | pkt
  /-- VALID: validate the checksum (43_crc.md R151). -/
  | valid
  /-- ID: the sensor id (44_fields.md R160). -/
  | id
  /-- HUM: the humidity byte (44_fields.md R161). -/
  | hum
  /-- TEMP: the signed temperature (44_fields.md R162). -/
  | temp
  /-- TEMPTXT: the parts of the temperature's text (44_fields.md R163). -/
  | temptxt
  /-- STMIN: the running minima (42_stats.md R140). -/
  | stmin
  /-- STMAX: the running maxima (42_stats.md R141). -/
  | stmax
  /-- STMEAN: the means per class (42_stats.md R142). -/
  | stmean
  /-- RESERVED: a word that matches no row of 30_encoding.md R82, kept as it stands (45_system.md R171; log 7). -/
  | reserved (w : OpWord)
  deriving DecidableEq, Repr

namespace Instr

/-- The row's mnemonic in spec/opcode_table.json. -/
def mnemonic : Instr → String
  | .nop => "NOP"
  | .accept _ => "ACCEPT"
  | .acq => "ACQ"
  | .pkt => "PKT"
  | .valid => "VALID"
  | .id => "ID"
  | .hum => "HUM"
  | .temp => "TEMP"
  | .temptxt => "TEMPTXT"
  | .stmin => "STMIN"
  | .stmax => "STMAX"
  | .stmean => "STMEAN"
  | .reserved _ => "RESERVED"

end Instr

end Sys2Proof
end

