-- ==== Sys2Proof/Machine/Dispatch.lean ====
section
/-! DEFINITION. One arm per instruction. -/

namespace Sys2Proof.Machine

/-- The block executes one operation (30_encoding.md R80). -/
def exec (i : Instr) (s : State) : Host.Outcome State Fault Refusal :=
  match i with
  | .nop => Sys2Proof.Machine.execNop s
  | .accept d => Sys2Proof.Machine.execAccept d s
  | .acq => Sys2Proof.Machine.execAcq s
  | .pkt => Sys2Proof.Machine.execPkt s
  | .valid => Sys2Proof.Machine.execValid s
  | .id => Sys2Proof.Machine.execId s
  | .hum => Sys2Proof.Machine.execHum s
  | .temp => Sys2Proof.Machine.execTemp s
  | .temptxt => Sys2Proof.Machine.execTemptxt s
  | .stmin => Sys2Proof.Machine.execStmin s
  | .stmax => Sys2Proof.Machine.execStmax s
  | .stmean => Sys2Proof.Machine.execStmean s
  | .reserved w => Sys2Proof.Machine.execReserved w s

end Sys2Proof.Machine
end

