-- ==== Sys2Proof/Decode.lean ====
section
/-! DEFINITION. Operation words to instructions and back (30_encoding.md R81 to R84). Decoding is total: a word that matches
no row is rejected by name (`IllegalWord`) and becomes the RESERVED instruction, whose effect is 45_system.md R171. -/

namespace Sys2Proof

/-- `v[hi:lo]` as an unsigned number of `hi - lo + 1` bits (00_scope.md R8); the empty slice (`hi + 1 = lo`) is 0. -/
def slice (v hi lo : Nat) : Nat := v / 2 ^ lo % 2 ^ (hi + 1 - lo)

/-- `opc = op[15:12]` (R81). -/
def opcField (w : OpWord) : Nat := slice w.toNat 15 12

/-- `rsv = op[11:DW]` (R81). -/
def rsvField (dw : Nat) (w : OpWord) : Nat := slice w.toNat 11 dw

/-- `dur = op[DW-1:0]`, unsigned, neither scaled nor sign-extended (R81, R83). -/
def durField (dw : Nat) (w : OpWord) : Nat := slice w.toNat (dw - 1) 0

/-- `op[11:0]`, the field that must be zero in an operation without an operand (R81). -/
def lowField (w : OpWord) : Nat := slice w.toNat 11 0

/-- Why a word is illegal: the three cases of 30_encoding.md R84. -/
inductive IllegalWord where
  /-- `opc` is 0xC to 0xF -/
  | reservedCode
  /-- `opc` is 0x1 and `rsv` is not zero -/
  | reservedBits
  /-- `opc` is any other code and `op[11:0]` is not zero -/
  | operandBits
  deriving DecidableEq, Repr

/-- The operations without an operand, by code (R82). -/
def plainOperation : Nat → Option Instr
  | 0x0 => some .nop
  | 0x2 => some .acq
  | 0x3 => some .pkt
  | 0x4 => some .valid
  | 0x5 => some .id
  | 0x6 => some .hum
  | 0x7 => some .temp
  | 0x8 => some .temptxt
  | 0x9 => some .stmin
  | 0xA => some .stmax
  | 0xB => some .stmean
  | _ => none

/-- The row a word selects, or the name of the case of R84 it falls under. -/
def decodeLegalAt (dw : Nat) (w : OpWord) : Except IllegalWord Instr :=
  if opcField w = 0x1 then
    if rsvField dw w = 0 then .ok (.accept (durField dw w)) else .error .reservedBits
  else
    match plainOperation (opcField w) with
    | none => .error .reservedCode
    | some i => if lowField w = 0 then .ok i else .error .operandBits

/-- The decoder for duration width `dw`; an illegal word is kept whole. -/
def decodeAt (dw : Nat) (w : OpWord) : Instr :=
  match decodeLegalAt dw w with
  | .ok i => i
  | .error _ => .reserved w

/-- The decoder of the configured machine. -/
def decode (w : OpWord) : Instr := decodeAt Config.current.dw w

/-- The operation word of an instruction (R82, R88: `ACCEPT d` is `0x1000 | d`, `.word w` places `w` as it is). -/
def encode : Instr → OpWord
  | .nop => 0x0000#16
  | .accept d => 0x1000#16 ||| BitVec.ofNat 16 d
  | .acq => 0x2000#16
  | .pkt => 0x3000#16
  | .valid => 0x4000#16
  | .id => 0x5000#16
  | .hum => 0x6000#16
  | .temp => 0x7000#16
  | .temptxt => 0x8000#16
  | .stmin => 0x9000#16
  | .stmax => 0xA000#16
  | .stmean => 0xB000#16
  | .reserved w => w

/-- A row of the operation map of R82: a word selects it when `w & mask = pattern`. -/
structure OpRow where
  mnemonic : String
  pattern : OpWord
  mask : OpWord
  deriving DecidableEq, Repr

/-- `w & mask = match` (R82). -/
abbrev OpRow.Selects (r : OpRow) (w : OpWord) : Prop := w &&& r.mask = r.pattern

/-- ACCEPT's mask, `0xFFFF & ~(2^DW - 1)` (R82). -/
def acceptMask (dw : Nat) : OpWord := 0xFFFF#16 &&& ~~~ (BitVec.ofNat 16 (2 ^ dw - 1))

/-- The twelve legal rows of R82. -/
def opRows (dw : Nat) : List OpRow :=
  [⟨"NOP", 0x0000#16, 0xFFFF#16⟩, ⟨"ACCEPT", 0x1000#16, acceptMask dw⟩, ⟨"ACQ", 0x2000#16, 0xFFFF#16⟩,
    ⟨"PKT", 0x3000#16, 0xFFFF#16⟩, ⟨"VALID", 0x4000#16, 0xFFFF#16⟩, ⟨"ID", 0x5000#16, 0xFFFF#16⟩] ++
  [⟨"HUM", 0x6000#16, 0xFFFF#16⟩, ⟨"TEMP", 0x7000#16, 0xFFFF#16⟩, ⟨"TEMPTXT", 0x8000#16, 0xFFFF#16⟩,
    ⟨"STMIN", 0x9000#16, 0xFFFF#16⟩, ⟨"STMAX", 0xA000#16, 0xFFFF#16⟩, ⟨"STMEAN", 0xB000#16, 0xFFFF#16⟩]

/-- The thirteenth row of the table, the codes 0xC to 0xF (R82, R84). -/
def reservedRow : OpRow := ⟨"RESERVED", 0xC000#16, 0xC000#16⟩

/-- The operation word that `nbits` bits numbered as spec/opcode_table.json numbers them stand for; the bits above are 0
(log 21). -/
def tableWord (nbits w : Nat) : OpWord := BitVec.ofNat 16 (w % 2 ^ nbits)

/-- The instruction the decoder reads from a table word; an operation word has 16 bits, so a longer one is no word. -/
def decodeTableWord (nbits w : Nat) : Option Instr :=
  if nbits ≤ 16 then some (decode (tableWord nbits w)) else none

end Sys2Proof
end

