-- ==== Sys2Proof/Machine/Fetch.lean ====
section
/-! DEFINITION. What the port presents in a clock cycle (30_encoding.md R87), and how a client places a word there. -/

namespace Sys2Proof.Machine

variable {sw cw : Nat}

/-- A cycle in which nothing is presented: `op_valid = 0`. -/
def Cycle.empty : Cycle := ⟨false, false, 0x0000#16⟩

/-- The cycle that presents the operation word `w`. -/
def Cycle.present (w : OpWord) : Cycle := ⟨false, true, w⟩

/-- The cycle that applies reset. -/
def Cycle.reset : Cycle := ⟨true, false, 0x0000#16⟩

/-- The cycle at the port, and the state with it taken off. Where no client presents anything the pins read `op_valid = 0`
(log 5). -/
def State.Of.nextCycle (s : State.Of sw cw) : Cycle × State.Of sw cw :=
  match s.inputs with
  | [] => (Cycle.empty, s)
  | k :: rest => (k, { s with inputs := rest })

/-- What a cycle asks for at duration width `dw`: nothing but reset when `rst = 1`, whatever the other pins hold
(70_reset_and_hazards.md R200); else the operation word, or a NOP when `op_valid = 0`, whatever `op` holds (45_system.md
R170). -/
def Cycle.operationAt? (dw : Nat) (k : Cycle) : Option Instr :=
  if k.rst then none else if k.opValid then some (decodeAt dw k.op) else some .nop

/-- What a cycle asks for at the configured width. -/
def Cycle.operation? (k : Cycle) : Option Instr := k.operationAt? Config.current.dw

/-- The state with the word `w` presented in the next cycle, before everything already presented (log 6). -/
def State.Of.presentWord (s : State.Of sw cw) (w : OpWord) : State.Of sw cw :=
  { s with inputs := Cycle.present w :: s.inputs }

end Sys2Proof.Machine
end

