-- ==== Sys2Proof/Machine/Step.lean ====
section
/-! DEFINITION. One step is one clock cycle of the port (30_encoding.md R87, 20_memory.md R60). -/

namespace Sys2Proof.Machine

/-- One clock cycle: reset wins over an operation (60_exceptions.md R189); else the presented operation runs. -/
def step (s : State) : Host.Outcome State Fault Refusal :=
  match s.nextCycle.1.operation? with
  | none => .next s.nextCycle.2.takeReset
  | some i => exec i s.nextCycle.2

/-- The state whose next step runs the instruction of the table word `w` (log 6, 21). -/
def State.withFetchWord (s : State) (nbits w : Nat) : State := s.presentWord (tableWord nbits w)

end Sys2Proof.Machine
end

