-- ==== Sys2Proof/Machine/Parameters.lean ====
section
/-! DEFINITION. The block with its parameters as arguments, every `parameter` row of 00_scope.md R6 among them: thresholds, DW,
SUMW, CNTW, CRC_INIT and MEAN_MUTATES. `exec` and `step` are this machine at the defaults (Laws/Exec.lean proves it). -/

namespace Sys2Proof.Machine

/-- The block with the parameters `c` executes one operation (30_encoding.md R80). -/
def execAt (c : Params) (i : Instr) (s : State.At c) : Host.Outcome (State.At c) Fault Refusal :=
  match i with
  | .nop => execNop s
  | .accept d => execAcceptAt c d s
  | .acq => execAcq s
  | .pkt => execPkt s
  | .valid => execValidAt c s
  | .id => execId s
  | .hum => execHum s
  | .temp => execTemp s
  | .temptxt => execTemptxt s
  | .stmin => execStmin s
  | .stmax => execStmax s
  | .stmean => execStmeanAt c s
  | .reserved w => execReserved w s

/-- One clock cycle of the block with the parameters `c`, as `step` (30_encoding.md R87). -/
def stepAt (c : Params) (s : State.At c) : Host.Outcome (State.At c) Fault Refusal :=
  match s.nextCycle.1.operationAt? c.dw with
  | none => .next s.nextCycle.2.takeReset
  | some i => execAt c i s.nextCycle.2

end Sys2Proof.Machine
end

