-- ==== Sys2Proof/WellFormed.lean ====
section
/-! DEFINITION. When an instruction is one that some operation word stands for. Written from the text of 30_encoding.md
R83 and R84, not from the decoder. -/

namespace Sys2Proof

/-- 30_encoding.md R84: the word is illegal when `opc` is 0xC to 0xF, or `opc` is 0x1 and `op[11:DW]` is not zero, or `opc`
is any other code and `op[11:0]` is not zero. -/
def illegalWordAt (dw : Nat) (w : OpWord) : Bool :=
  let opc := w.toNat / 4096
  let low := w.toNat % 4096
  decide (12 ≤ opc) || (opc == 1 && low / 2 ^ dw != 0) || (opc != 1 && low != 0)

/-- An instruction of the block with duration width `dw`: an ACCEPT's duration fits its field (R83), and a reserved word is
an illegal one (R84). -/
def Instr.wellFormedAt (dw : Nat) : Instr → Bool
  | .accept d => decide (d < 2 ^ dw)
  | .reserved w => illegalWordAt dw w
  | .nop => true
  | .acq => true
  | .pkt => true
  | .valid => true
  | .id => true
  | .hum => true
  | .temp => true
  | .temptxt => true
  | .stmin => true
  | .stmax => true
  | .stmean => true

/-- Well-formed for the configured width. -/
abbrev Instr.WellFormed (i : Instr) : Prop := i.wellFormedAt Config.current.dw = true

end Sys2Proof
end

