-- ==== Sys2Proof/Machine/Assembler.lean ====
section
/-! DEFINITION. The assembler notation of the spec's test programs: lines, pseudo-operations and directives as the clock
cycles they stand for, and the reading of one line of text (30_encoding.md R88, R89; log 20). Outside the machine: nothing
here is called by a step. -/

namespace Sys2Proof.Machine

/-- One line of an assembler program. -/
inductive AsmLine where
  /-- `MNEMONIC` or `ACCEPT <d>` (R88) -/
  | operation (i : Instr)
  /-- `RESET`: one clock cycle with `rst = 1` (R88) -/
  | reset
  /-- `.word <w>`: the word as it is, legal or not (R88) -/
  | word (w : OpWord)
  /-- `H`, a HIGH pulse (R89) -/
  | h
  /-- `L`, a LOW pulse (R89) -/
  | l
  /-- `X`, an INVALID pulse from the gap between the ranges (R89) -/
  | x
  /-- `GAP`, a saturated long gap (R89) -/
  | gap
  /-- `BITS b1 ... bn` (R89) -/
  | bits (bs : List Bool)
  /-- `BYTE v` (R89) -/
  | byte (v : Byte)
  /-- `DUR d1 ... dn` (R89) -/
  | dur (ds : List Nat)
  /-- `PRE n` (R89) -/
  | pre (n : Nat)
  /-- `FRAME v0 v1 v2 v3 v4` (R89) -/
  | frame (v0 v1 v2 v3 v4 : Byte)
  deriving DecidableEq, Repr

/-- `H` for a 1 and `L` for a 0 (R89). -/
def pulseOfBit (b : Bool) : Nat := if b then 20 else 60

/-- The 8 bits of a byte, bit 7 first (R89). -/
def bitsOfByte (v : Byte) : List Bool := (List.range 8).map fun j => v.getLsbD (7 - j)

/-- The durations a pseudo-operation submits; none for a line that is no run of pulses. -/
def AsmLine.pulses : AsmLine → Option (List Nat)
  | .h => some [20]
  | .l => some [60]
  | .x => some [40]
  | .gap => some [255]
  | .bits bs => some (bs.map pulseOfBit)
  | .byte v => some ((bitsOfByte v).map pulseOfBit)
  | .dur ds => some ds
  | .pre n => some (List.replicate n 20)
  | .frame v0 v1 v2 v3 v4 =>
    if v0.getLsbD 7 then none
    else some ((bitsOfByte v0 ++ bitsOfByte v1 ++ bitsOfByte v2 ++ bitsOfByte v3 ++ bitsOfByte v4).map pulseOfBit)
  | .operation _ => none
  | .reset => none
  | .word _ => none

/-- The clock cycles of a line at duration width `dw`; none for an operand out of range, for a `FRAME` whose first bit is 1, and
for an illegal word written as an operation, which only `.word` may place (R88, R89). -/
def AsmLine.cyclesAt (dw : Nat) : AsmLine → Option (List Cycle)
  | .operation (.reserved _) => none
  | .operation i => if i.wellFormedAt dw then some [Cycle.present (encode i)] else none
  | .reset => some [Cycle.reset]
  | .word w => some [Cycle.present w]
  | line =>
    match line.pulses with
    | none => none
    | some ds =>
      if ds.all fun d => (Instr.accept d).wellFormedAt dw then
        some (ds.map fun d => Cycle.present (encode (.accept d)))
      else none

/-- The clock cycles of a line at the configured width. -/
def AsmLine.cycles (line : AsmLine) : Option (List Cycle) := line.cyclesAt Config.current.dw

/-- The words of a line, up to the comment that `;` starts (R88). -/
def tokensFrom : List Char → List Char → List (List Char)
  | [], cur => if cur.isEmpty then [] else [cur.reverse]
  | ch :: rest, cur =>
    if ch = ';' then (if cur.isEmpty then [] else [cur.reverse])
    else if ch = ' ' ∨ ch = '\t' then (if cur.isEmpty then tokensFrom rest [] else cur.reverse :: tokensFrom rest [])
    else tokensFrom rest (ch :: cur)

/-- A digit's value, capital and small letters alike (log 20). -/
def digitValue (ch : Char) : Option Nat :=
  let n := ch.toNat
  if 48 ≤ n ∧ n ≤ 57 then some (n - 48)
  else if 65 ≤ n ∧ n ≤ 70 then some (n - 55)
  else if 97 ≤ n ∧ n ≤ 102 then some (n - 87)
  else none

/-- A number in base `base` from its digits, most significant first. -/
def digitsValue (base : Nat) : List Char → Nat → Option Nat
  | [], acc => some acc
  | ch :: rest, acc =>
    match digitValue ch with
    | none => none
    | some v => if v < base then digitsValue base rest (acc * base + v) else none

/-- A decimal number or a hexadecimal one after `0x`. R88 gives this form for the `<d>` of ACCEPT alone. DESIGN CHOICE: every
other operand of a line is read in the same form, which the spec leaves open (log 20). -/
def parseNumber : List Char → Option Nat
  | '0' :: 'x' :: d :: ds => digitsValue 16 (d :: ds) 0
  | d :: ds => digitsValue 10 (d :: ds) 0
  | [] => none

/-- A number below a bound. -/
def parseBelow (bound : Nat) (t : List Char) : Option Nat :=
  match parseNumber t with
  | none => none
  | some n => if n < bound then some n else none

/-- A bit operand of `BITS`. -/
def parseBit (t : List Char) : Option Bool :=
  match parseBelow 2 t with
  | none => none
  | some n => some (n == 1)

/-- The lines without an operand, by their text (R88: mnemonics are upper case). -/
def plainLines : List (String × AsmLine) :=
  [("NOP", .operation .nop), ("ACQ", .operation .acq), ("PKT", .operation .pkt), ("VALID", .operation .valid),
    ("ID", .operation .id), ("HUM", .operation .hum), ("TEMP", .operation .temp), ("TEMPTXT", .operation .temptxt)] ++
  [("STMIN", .operation .stmin), ("STMAX", .operation .stmax), ("STMEAN", .operation .stmean), ("RESET", .reset),
    ("H", .h), ("L", .l), ("X", .x), ("GAP", .gap)]

/-- A line from its words. DESIGN CHOICE: the operands of `.word`, `PRE`, `BITS`, `BYTE`, `DUR` and `FRAME` are decimal unless
they begin with `0x`, as R88 says of ACCEPT's operand only; a bare `BYTE 40` is forty (log 20). -/
def parseTokens (dw : Nat) (name : List Char) (args : List (List Char)) : Option AsmLine :=
  match args with
  | [] => (plainLines.find? fun p => p.1.toList == name).map Prod.snd
  | a :: rest =>
    if name = "ACCEPT".toList ∧ rest = [] then (parseBelow (2 ^ dw) a).map fun d => .operation (.accept d)
    else if name = ".word".toList ∧ rest = [] then (parseBelow 65536 a).map fun w => .word (BitVec.ofNat 16 w)
    else if name = "PRE".toList ∧ rest = [] then (parseNumber a).map .pre
    else if name = "BYTE".toList ∧ rest = [] then (parseBelow 256 a).map fun v => .byte (BitVec.ofNat 8 v)
    else if name = "BITS".toList then (args.mapM parseBit).map .bits
    else if name = "DUR".toList then (args.mapM (parseBelow (2 ^ dw))).map .dur
    else if name = "FRAME".toList then
      match args.mapM (parseBelow 256) with
      | some [v0, v1, v2, v3, v4] =>
        some (.frame (BitVec.ofNat 8 v0) (BitVec.ofNat 8 v1) (BitVec.ofNat 8 v2) (BitVec.ofNat 8 v3) (BitVec.ofNat 8 v4))
      | _ => none
    else none

/-- The cycles of one line of text at duration width `dw`: a line with no words (empty, or only a comment) stands for no cycle;
none is a line that is not of the syntax. -/
def assembleLineAt (dw : Nat) (text : List Char) : Option (List Cycle) :=
  match tokensFrom text [] with
  | [] => some []
  | name :: args =>
    match parseTokens dw name args with
    | none => none
    | some line => line.cyclesAt dw

/-- The cycles of one line of text at the configured width. -/
def assembleLine (text : List Char) : Option (List Cycle) := assembleLineAt Config.current.dw text

/-- The cycles of a whole program, one line after another. -/
def assembleLines (lines : List (List Char)) : Option (List Cycle) := (lines.mapM assembleLine).map List.flatten

end Sys2Proof.Machine
end

