-- ==== Sys2Proof/Safety.lean ====
section
/-! DEFINITION. The terms that claims are stated in: runs of operations, reachable states, the invariant of the registers,
merges of the two clients' streams, frames, and the access matrix. -/

namespace Sys2Proof

/-- The duration an operation submits: ACCEPT alone has one. -/
def Instr.duration? : Instr → Option Nat
  | .accept d => some d
  | .nop => none
  | .acq => none
  | .pkt => none
  | .valid => none
  | .id => none
  | .hum => none
  | .temp => none
  | .temptxt => none
  | .stmin => none
  | .stmax => none
  | .stmean => none
  | .reserved _ => none

/-- The durations a list of operations submits, in order: the producer's stream (20_memory.md R61). -/
def submitted (ops : List Instr) : List Nat := ops.filterMap Instr.duration?

/-- `m` is a merge of the streams `p` and `c` that keeps the order of each (20_memory.md R61). -/
inductive IsMerge {α : Type} : List α → List α → List α → Prop where
  | nil : IsMerge [] [] []
  | fromFirst {x : α} {p c m : List α} : IsMerge p c m → IsMerge (x :: p) c (x :: m)
  | fromSecond {x : α} {p c m : List α} : IsMerge p c m → IsMerge p (x :: c) (x :: m)

/-- Forty valid samples of which the first is LOW: the durations of a frame `f0` to `f39` (30_encoding.md R71). -/
def IsFrame (ds : List Nat) : Prop :=
  ds.length = 40 ∧ (∀ d ∈ ds, classify d ≠ .invalid) ∧ ds.head?.map classify = some .low

/-- The durations of the samples of class `c` (00_scope.md R10). -/
def ofClass (c : Bool) (ds : List Nat) : List Nat := ds.filter fun d => (classify d).bit? == some c

namespace Machine

/-- A list of operations, one after another, stopping at the first fault or refusal. -/
def runOps : List Instr → State → Host.Outcome State Fault Refusal
  | [], s => .next s
  | i :: is, s =>
    match exec i s with
    | .next t => runOps is t
    | .fault f => .fault f
    | .refused r => .refused r

/-- The cycles that present a list of operations. -/
def presented (ops : List Instr) : List Cycle := ops.map fun i => Cycle.present (encode i)

/-- The states some run of the block with the parameters `c` reaches from reset, for every value the reset leaves open and
every stream of cycles (10_state.md R31, 93_implementation_defined.md U1, U4). -/
inductive Reachable (c : Params) : State.At c → Prop where
  | afterReset (u : Unspecified c.sumw) (s : State.At c) : Reachable c (s.resetWith u)
  | afterStep {s t : State.At c} : Reachable c s → stepAt c s = .next t → Reachable c t

/-- What holds of the registers in every reachable state, for the parameters `c` (10_state.md R32 to R34, 00_scope.md R7,
42_stats.md R140, R141, R145). A class-0 count of at least 1 says that a sync match has happened since reset. -/
structure RegsInv (c : Params) {sw cw : Nat} (r : Regs sw cw) : Prop where
  /-- R32 -/
  searching_history : r.state = .searching → r.history = 0xFF#8
  /-- R33: the position is inside the packet -/
  acquiring_byte : r.state = .acquiring → r.byteIdx.toNat ≤ 4
  /-- R33: the counts are the bits taken so far -/
  acquiring_count : r.state = .acquiring →
    r.statCnt.class0.toNat + r.statCnt.class1.toNat = 8 * r.byteIdx.toNat + r.bitIdx.toNat
  /-- R33: the sync sample is counted -/
  acquiring_started : r.state = .acquiring → 1 ≤ r.statCnt.class0.toNat
  /-- R33: bytes not yet begun are zero -/
  acquiring_later : r.state = .acquiring → ∀ j : Fin 5, r.byteIdx.toNat < j.val → r.packet.read j = 0x00#8
  /-- R33: the byte in progress holds no bit above those taken -/
  acquiring_current : r.state = .acquiring →
    ∀ j : Fin 5, j.val = r.byteIdx.toNat → (r.packet.read j).toNat < 2 ^ r.bitIdx.toNat
  /-- R34, R111: byte 0 takes one shift less than bits -/
  acquiring_first : r.state = .acquiring → r.byteIdx = 0 → (r.packet.read 0).toNat < 2 ^ (r.bitIdx.toNat - 1)
  /-- R34 -/
  synced_sign : 1 ≤ r.statCnt.class0.toNat → (r.packet.read 0).toNat < 128
  /-- an unread completion follows a sync match -/
  acquired_synced : r.acquired = true → 1 ≤ r.statCnt.class0.toNat
  /-- R7 -/
  counts_total : r.statCnt.class0.toNat + r.statCnt.class1.toNat ≤ 40
  /-- a class-1 sample follows a sync match -/
  unsynced : r.statCnt.class0.toNat = 0 → r.statCnt.class1.toNat = 0
  /-- R145 -/
  range_low : 1 ≤ r.statCnt.class0.toNat →
    c.loMin ≤ r.statMin.class0.toNat ∧ r.statMin.class0.toNat ≤ r.statMax.class0.toNat ∧
      r.statMax.class0.toNat ≤ c.loMax
  /-- R145 -/
  range_high : 1 ≤ r.statCnt.class1.toNat →
    c.hiMin ≤ r.statMin.class1.toNat ∧ r.statMin.class1.toNat ≤ r.statMax.class1.toNat ∧
      r.statMax.class1.toNat ≤ c.hiMax
  /-- R140, R141: a class never observed since the sync match -/
  unseen_high : 1 ≤ r.statCnt.class0.toNat → r.statCnt.class1.toNat = 0 →
    r.statMin.class1.toNat = c.loMax + 1 ∧ r.statMax.class1.toNat = 0 ∧ r.statSum.class1.toNat = 0
  /-- R7, whatever STMEAN did to the sum -/
  sum_low : 1 ≤ r.statCnt.class0.toNat → r.statSum.class0.toNat ≤ r.statCnt.class0.toNat * c.loMax
  /-- R7, whatever STMEAN did to the sum -/
  sum_high : 1 ≤ r.statCnt.class0.toNat → r.statSum.class1.toNat ≤ r.statCnt.class1.toNat * c.hiMax

/-- The invariant of the configured machine. -/
abbrev State.Inv (s : State) : Prop := RegsInv Config.current s.regs

/-- No STMEAN has touched the sums since the sync match: each sum lies between count times minimum and count times maximum
(42_stats.md R142, R143). -/
def Regs.SumsUntouched {sw cw : Nat} (r : Regs sw cw) : Prop :=
  1 ≤ r.statCnt.class0.toNat → ∀ b : Bool, 1 ≤ (r.statCnt.get b).toNat →
    (r.statCnt.get b).toNat * (r.statMin.get b).toNat ≤ (r.statSum.get b).toNat ∧
      (r.statSum.get b).toNat ≤ (r.statCnt.get b).toNat * (r.statMax.get b).toNat

/-- The operation is the ACCEPT of the fortieth bit (40_accept.md R113). -/
def completesFrame (i : Instr) {sw cw : Nat} (r : Regs sw cw) : Bool :=
  match i.duration? with
  | none => false
  | some d => classify d != .invalid && r.state == .acquiring && r.byteIdx == 4 && r.bitIdx == 7

/-- No operation of the list completes a frame, run from `s`. -/
def noCompletion : List Instr → State → Bool
  | [], _ => true
  | i :: is, s =>
    !completesFrame i s.regs &&
      match exec i s with
      | .next t => noCompletion is t
      | .fault _ => true
      | .refused _ => true

/-- What the ACQs of a list of operations return, in order. -/
def acqAnswers : List Instr → State → List ResultWord
  | [], _ => []
  | i :: is, s =>
    match exec i s with
    | .next t => if i = .acq then t.rData :: acqAnswers is t else acqAnswers is t
    | .fault _ => []
    | .refused _ => []

/-- No operation of the list submits a LOW sample: the premise of 70_reset_and_hazards.md R207. -/
def noLowSample (ops : List Instr) : Bool := (submitted ops).all fun d => classify d != .low

/-- The registers that only ACCEPT and reset write: all but `acquired` and the sums (10_state.md R29). -/
def Regs.SameAcquisition {sw cw : Nat} (a b : Regs sw cw) : Prop :=
  a.state = b.state ∧ a.history = b.history ∧ a.packet = b.packet ∧ a.byteIdx = b.byteIdx ∧ a.bitIdx = b.bitIdx ∧
    a.statMin = b.statMin ∧ a.statMax = b.statMax ∧ a.statCnt = b.statCnt

/-- Two register files, of whatever widths, hold the same values (00_scope.md R7). -/
def Regs.SameValues {sw cw sw' cw' : Nat} (a : Regs sw cw) (b : Regs sw' cw') : Prop :=
  a.state = b.state ∧ a.acquired = b.acquired ∧ a.history = b.history ∧ a.packet = b.packet ∧ a.byteIdx = b.byteIdx ∧
    a.bitIdx = b.bitIdx ∧ a.statMin = b.statMin ∧ a.statMax = b.statMax ∧
    ∀ k : Bool, (a.statSum.get k).toNat = (b.statSum.get k).toNat ∧ (a.statCnt.get k).toNat = (b.statCnt.get k).toNat

/-! The access matrix of 10_state.md R29. -/

/-- The rows of the matrix. -/
inductive Reg where
  | state
  | acquired
  | history
  | packet
  | byteIdx
  | bitIdx
  | statMin
  | statMax
  | statSum
  | statCnt
  deriving DecidableEq, Repr

/-- An entry of the matrix. -/
inductive Access where
  | neither
  | r
  | w
  | rw
  deriving DecidableEq, Repr

/-- A query that reads the packet and nothing else. -/
def packetOnly : Reg → Access
  | .packet => .r
  | .state => .neither
  | .acquired => .neither
  | .history => .neither
  | .byteIdx => .neither
  | .bitIdx => .neither
  | .statMin => .neither
  | .statMax => .neither
  | .statSum => .neither
  | .statCnt => .neither

/-- The matrix: a column is an operation, and an operation that is not listed touches nothing. -/
def access : Instr → Reg → Access
  | .accept _, g => if g = .acquired then .w else .rw
  | .acq, g => if g = .acquired then .rw else .neither
  | .pkt, g => packetOnly g
  | .valid, g => packetOnly g
  | .id, g => packetOnly g
  | .hum, g => packetOnly g
  | .temp, g => packetOnly g
  | .temptxt, g => packetOnly g
  | .stmin, g => if g = .statMin then .r else .neither
  | .stmax, g => if g = .statMax then .r else .neither
  | .stmean, g => if g = .statSum then .rw else if g = .statCnt then .r else .neither
  | .nop, _ => .neither
  | .reserved _, _ => .neither

/-- The operation reads the register. -/
def reads (i : Instr) (g : Reg) : Bool := access i g == .r || access i g == .rw

/-- The operation writes the register. -/
def writes (i : Instr) (g : Reg) : Bool := access i g == .w || access i g == .rw

/-- Two register files hold the same value in one register. -/
def Regs.Agree {sw cw : Nat} (g : Reg) (a b : Regs sw cw) : Prop :=
  match g with
  | .state => a.state = b.state
  | .acquired => a.acquired = b.acquired
  | .history => a.history = b.history
  | .packet => a.packet = b.packet
  | .byteIdx => a.byteIdx = b.byteIdx
  | .bitIdx => a.bitIdx = b.bitIdx
  | .statMin => a.statMin = b.statMin
  | .statMax => a.statMax = b.statMax
  | .statSum => a.statSum = b.statSum
  | .statCnt => a.statCnt = b.statCnt

end Machine

end Sys2Proof
end

