-- ==== Sys2Proof/Certificates/Slice0/Obligations.lean ====
section
/-! DEFINITION. The statements for the provers. Every one is about all states or all words unless it names one. A statement of
an instruction's result is an equation `exec i s = .next …`: whatever the record update does not name is unchanged. -/

open Sys2Proof Sys2Proof.Machine

/-! ## Parameters (00_scope.md) -/

/-- The configuration that `exec` and `step` run with has the defaults and meets the constraints of R6, and they are the block
of all parameters at that configuration. -/
def Obligations.DefaultParametersGiveTheMachine : Prop :=
  Config.current =
      { hiMin := 13, hiMax := 27, loMin := 52, loMax := 68, dw := 8, sumw := 16, cntw := 8, crcInit := 0x00#8,
        meanMutates := true } ∧
    Config.current.Admissible ∧ Config.current.statMinInit = 69 ∧
    (∀ (i : Instr) (s : State), execAt Config.current i s = exec i s) ∧
    ∀ s : State, stepAt Config.current s = step s

/-- R7: every model with admissible widths of the sums and counts computes the same values. An operation run at two such pairs
of widths, from states of the invariant whose registers hold the same values, answers the same and leaves the same values. -/
def Obligations.WidthsDoNotMatter : Prop :=
  ∀ (c : Params) (sw cw : Nat), c.Admissible → Params.Admissible { c with sumw := sw, cntw := cw } →
    ∀ (i : Instr) (s : State.At c) (s' : State.At { c with sumw := sw, cntw := cw }),
      RegsInv c s.regs → s.regs.SameValues s'.regs →
      ∃ t t', execAt c i s = .next t ∧ execAt { c with sumw := sw, cntw := cw } i s' = .next t' ∧
        t.regs.SameValues t'.regs ∧ t.rData = t'.rData ∧ t.rStatus = t'.rStatus

/-! ## Encoding (30_encoding.md) -/

/-- One word of each row of R82, written out from the table, and three illegal words, decode to what they stand for. -/
def Obligations.OperationWordsDecode : Prop :=
  decode 0x0000#16 = .nop ∧ decode 0x1014#16 = .accept 20 ∧ decode 0x10FF#16 = .accept 255 ∧ decode 0x2000#16 = .acq ∧
    decode 0x3000#16 = .pkt ∧ decode 0x4000#16 = .valid ∧ decode 0x5000#16 = .id ∧ decode 0x6000#16 = .hum ∧
    decode 0x7000#16 = .temp ∧ decode 0x8000#16 = .temptxt ∧ decode 0x9000#16 = .stmin ∧ decode 0xA000#16 = .stmax ∧
    decode 0xB000#16 = .stmean ∧ decode 0xC000#16 = .reserved 0xC000#16 ∧ decode 0x2001#16 = .reserved 0x2001#16 ∧
    decode 0x1100#16 = .reserved 0x1100#16

/-- For every admissible duration width, decoding the word of a well-formed instruction gives the instruction back, at every
operand (R81 to R84, R88). -/
def Obligations.DecodeOfEncode : Prop :=
  ∀ dw : Nat, 7 ≤ dw → dw ≤ 12 → ∀ i : Instr, i.wellFormedAt dw = true → decodeAt dw (encode i) = i

/-- For every admissible duration width, every word decodes to a well-formed instruction whose word it is: each word has one
meaning. -/
def Obligations.EncodeOfDecode : Prop :=
  ∀ dw : Nat, 7 ≤ dw → dw ≤ 12 → ∀ w : OpWord, (decodeAt dw w).wellFormedAt dw = true ∧ encode (decodeAt dw w) = w

/-- R82: the rows with DW = 8 and the reserved row; for another DW the ACCEPT mask is `0xFFFF & ~(2^DW - 1)`; a word selects a
row exactly when it decodes to that row's operation; a word of the reserved row, or of none of the thirteen, is reserved; the
thirteen rows are disjoint. -/
def Obligations.WordsSelectRows : Prop :=
  (opRows 8).map (fun r => (r.pattern, r.mask)) =
      [(0x0000#16, 0xFFFF#16), (0x1000#16, 0xFF00#16), (0x2000#16, 0xFFFF#16), (0x3000#16, 0xFFFF#16),
        (0x4000#16, 0xFFFF#16), (0x5000#16, 0xFFFF#16), (0x6000#16, 0xFFFF#16), (0x7000#16, 0xFFFF#16),
        (0x8000#16, 0xFFFF#16), (0x9000#16, 0xFFFF#16), (0xA000#16, 0xFFFF#16), (0xB000#16, 0xFFFF#16)] ∧
    (reservedRow.pattern, reservedRow.mask) = (0xC000#16, 0xC000#16) ∧
    ∀ dw : Nat, 7 ≤ dw → dw ≤ 12 → (acceptMask dw).toNat = 65536 - 2 ^ dw ∧ ∀ w : OpWord,
      (∀ r ∈ opRows dw, r.Selects w ↔ (decodeAt dw w).mnemonic = r.mnemonic) ∧
      (reservedRow.Selects w ∨ (∀ r ∈ opRows dw ++ [reservedRow], ¬r.Selects w) → decodeAt dw w = .reserved w) ∧
      (opRows dw ++ [reservedRow]).Pairwise (fun a b => ¬(a.Selects w ∧ b.Selects w))

/-- R84, R171: a word matches no row exactly in the three cases; it then has no effect but status ILLEGAL and result 0. -/
def Obligations.IllegalWordsHaveNoEffect : Prop :=
  ∀ w : OpWord,
    ((∀ r ∈ opRows 8, ¬r.Selects w) ↔
      12 ≤ w.toNat / 4096 ∨ (w.toNat / 4096 = 1 ∧ w.toNat / 256 % 16 ≠ 0) ∨
        (w.toNat / 4096 ≠ 1 ∧ w.toNat % 4096 ≠ 0)) ∧
    ((∀ r ∈ opRows 8, ¬r.Selects w) →
      decode w = .reserved w ∧
        ∀ s : State, exec (.reserved w) s = .next { s with rData := 0#40, rStatus := 0b01#2 })

/-! ## The step (30_encoding.md R87, 70_reset_and_hazards.md R200) -/

/-- A cycle without reset runs exactly the operation its word decodes to, at the state with the cycle taken off; a cycle with
`op_valid = 0`, or with nothing presented (log 5), runs NOP; and the word that `withFetchWord` places is what the next step
runs (log 6). -/
def Obligations.StepRunsPresentedOperation : Prop :=
  (∀ (s : State) (k : Cycle) (rest : List Cycle), s.inputs = k :: rest → k.rst = false →
      step s = exec (if k.opValid then decode k.op else .nop) { s with inputs := rest }) ∧
    (∀ s : State, s.inputs = [] → step s = exec .nop s) ∧
    (∀ (s : State) (nbits w : Nat) (i : Instr), decodeTableWord nbits w = some i →
      step (s.withFetchWord nbits w) = exec i s)

/-- Presenting a list of well-formed operations, one a cycle, and running as many steps is running the operations one after
another: each sees the full effect of the earlier ones and none of a later one (20_memory.md R60). -/
def Obligations.PresentedOperationsRunInOrder : Prop :=
  ∀ (ops : List Instr) (s : State) (rest : List Cycle), (∀ i ∈ ops, i.WellFormed) →
    Host.Core.run Sys2Proof.core ops.length { s with inputs := presented ops ++ rest } =
      runOps ops { s with inputs := rest }

/-- A cycle with `rst = 1` gives `state` IDLE, `acquired` 0 and both counts 0, from any state; the word of that cycle is not
executed, whatever `op_valid` and `op` are. The last clause also says that the registers and outputs the spec leaves unspecified
do not depend on `op_valid` and `op`: that is the model's choice, whose free value depends on its counter alone (log 3, 18). -/
def Obligations.ResetCycleWins : Prop :=
  ∀ (s : State) (k : Cycle) (rest : List Cycle), s.inputs = k :: rest → k.rst = true →
    ∃ t : State, step s = .next t ∧ t.inputs = rest ∧ t.regs.state = .idle ∧ t.regs.acquired = false ∧
      t.regs.statCnt = ⟨0#8, 0#8⟩ ∧
      ∀ k' : Cycle, k'.rst = true → step { s with inputs := k' :: rest } = .next t

/-- The only ways to change `state` are ACCEPT and reset, the only ways to clear `acquired` are ACQ and reset, and the only
way to set it is the ACCEPT of a frame's fortieth bit. -/
def Obligations.OnlyAcceptOrResetMovesTheSynchronizer : Prop :=
  ∀ s t : State, step s = .next t →
    (t.regs.state ≠ s.regs.state → ∃ k rest, s.inputs = k :: rest ∧
      (k.rst = true ∨ (k.opValid = true ∧ ∃ d, decode k.op = .accept d))) ∧
    (s.regs.acquired = true → t.regs.acquired = false → ∃ k rest, s.inputs = k :: rest ∧
      (k.rst = true ∨ (k.opValid = true ∧ decode k.op = .acq))) ∧
    (s.regs.acquired = false → t.regs.acquired = true → ∃ k rest, s.inputs = k :: rest ∧
      k.rst = false ∧ k.opValid = true ∧ completesFrame (decode k.op) s.regs = true)

/-- Every operation answers a next state, except that ACCEPT of a valid sample faults in ACQUIRING when `byte_idx` names no
byte of the packet (log 8). No operation is refused. -/
def Obligations.OperationsStopOnlyOutsideThePacket : Prop :=
  ∀ (i : Instr) (s : State),
    (∃ t, exec i s = .next t) ∨
      (exec i s = .fault .packetIndexOutOfRange ∧ s.regs.state = .acquiring ∧ 5 ≤ s.regs.byteIdx.toNat ∧
        ∃ d, i = .accept d ∧ classify d ≠ .invalid)

/-! ## NOP, ACQ, PKT (45_system.md, 41_handoff.md) -/

/-- R170: NOP, and a cycle with `op_valid = 0`, leave every register as it was and return 0 with status OK; so does any number
of them. -/
def Obligations.NopDoesNothing : Prop :=
  decode 0x0000#16 = .nop ∧
    (∀ s : State, exec .nop s = .next { s with rData := 0#40, rStatus := 0b00#2 }) ∧
    (∀ (s : State) (rest : List Cycle) (w : OpWord), s.inputs = ⟨false, false, w⟩ :: rest →
      step s = .next { s with inputs := rest, rData := 0#40, rStatus := 0b00#2 }) ∧
    (∀ (n : Nat) (s : State), ∃ t, runOps (List.replicate n .nop) s = .next t ∧ t.regs = s.regs)

/-- ACQ returns the flag and clears it, and touches nothing else (R130). -/
def Obligations.AcqReadsAndClears : Prop :=
  decode 0x2000#16 = .acq ∧
    ∀ s : State, exec .acq s =
      .next { s with
        regs := { s.regs with acquired := false }
        rData := if s.regs.acquired then 1#40 else 0#40
        rStatus := 0b00#2 }

/-- R132: the operation that completes a frame sets the flag; from there, and from any state, while no further frame completes
the first ACQ returns the flag and every later one returns 0. -/
def Obligations.AcqAnswersOncePerCompletion : Prop :=
  (∀ (i : Instr) (s t : State), completesFrame i s.regs = true → exec i s = .next t → t.regs.acquired = true) ∧
    ∀ (ops : List Instr) (s t : State) (n : Nat), noCompletion ops s = true → runOps ops s = .next t →
      ops.count .acq = n + 1 →
      acqAnswers ops s = (if s.regs.acquired then 1#40 else 0#40) :: List.replicate n 0#40

/-- R131: PKT returns the five bytes of one state, `packet[0]` highest, in any state, and writes nothing. -/
def Obligations.PktReturnsTheWholePacket : Prop :=
  decode 0x3000#16 = .pkt ∧
    ∀ s : State, ∃ p : ResultWord, exec .pkt s = .next { s with rData := p, rStatus := 0b00#2 } ∧
      p.extractLsb' 32 8 = s.regs.packet.b0 ∧ p.extractLsb' 24 8 = s.regs.packet.b1 ∧
      p.extractLsb' 16 8 = s.regs.packet.b2 ∧ p.extractLsb' 8 8 = s.regs.packet.b3 ∧
      p.extractLsb' 0 8 = s.regs.packet.b4

/-! ## Statistics (42_stats.md) -/

/-- R140: STMIN returns both minima, class 1 in the higher byte; a class never observed since the last sync match reads 69. -/
def Obligations.StminReturnsMinima : Prop :=
  decode 0x9000#16 = .stmin ∧
    (∀ s : State, exec .stmin s =
      .next { s with
        rData := BitVec.ofNat 40 (s.regs.statMin.class1.toNat * 256 + s.regs.statMin.class0.toNat)
        rStatus := 0b00#2 }) ∧
    (∀ s t : State, s.Inv → 1 ≤ s.regs.statCnt.class0.toNat → s.regs.statCnt.class1 = 0 → exec .stmin s = .next t →
      t.rData.extractLsb' 8 8 = 69#8)

/-- R141: STMAX returns both maxima, class 1 in the higher byte; a class never observed since the last sync match reads 0. -/
def Obligations.StmaxReturnsMaxima : Prop :=
  decode 0xA000#16 = .stmax ∧
    (∀ s : State, exec .stmax s =
      .next { s with
        rData := BitVec.ofNat 40 (s.regs.statMax.class1.toNat * 256 + s.regs.statMax.class0.toNat)
        rStatus := 0b00#2 }) ∧
    (∀ s t : State, s.Inv → 1 ≤ s.regs.statCnt.class0.toNat → s.regs.statCnt.class1 = 0 → exec .stmax s = .next t →
      t.rData.extractLsb' 8 8 = 0#8)

/-- R142: STMEAN returns the means of the classes that have samples, sets the divide-by-zero bit of those that have none,
replaces the sums that were divided and no others, and answers DIV0 when a count is 0. -/
def Obligations.StmeanReturnsAndStoresMeans : Prop :=
  decode 0xB000#16 = .stmean ∧
    ∀ s : State,
      let cnt := s.regs.statCnt
      let sum := s.regs.statSum
      let mean0 := if cnt.class0.toNat = 0 then 0 else sum.class0.toNat / cnt.class0.toNat
      let mean1 := if cnt.class1.toNat = 0 then 0 else sum.class1.toNat / cnt.class1.toNat
      exec .stmean s =
        .next { s with
          regs := { s.regs with
            statSum :=
              ⟨if cnt.class0.toNat = 0 then sum.class0 else BitVec.ofNat 16 mean0,
                if cnt.class1.toNat = 0 then sum.class1 else BitVec.ofNat 16 mean1⟩ }
          rData := BitVec.ofNat 40
            ((if cnt.class1.toNat = 0 then 2 ^ 33 else 0) + (if cnt.class0.toNat = 0 then 2 ^ 32 else 0) +
              mean1 * 2 ^ 16 + mean0)
          rStatus := if cnt.class0.toNat = 0 ∨ cnt.class1.toNat = 0 then 0b10#2 else 0b00#2 }

/-- A second STMEAN divides the mean again; with a count of 1 it returns the same (42_stats.md R142, 90_conflicts.md C5). -/
def Obligations.SecondStmeanDividesAgain : Prop :=
  ∀ s t u : State, exec .stmean s = .next t → exec .stmean t = .next u →
    ∀ b : Bool, s.regs.statCnt.get b ≠ 0 →
      (u.regs.statSum.get b).toNat =
          (s.regs.statSum.get b).toNat / (s.regs.statCnt.get b).toNat / (s.regs.statCnt.get b).toNat ∧
        u.rData.extractLsb' (if b then 16 else 0) 16 = u.regs.statSum.get b ∧
        (s.regs.statCnt.get b = 1 → u.regs.statSum.get b = t.regs.statSum.get b)

/-- R144: with MEAN_MUTATES false STMEAN writes no register and repeating it returns the same; what it returns is what the
mutating form, the default, returns the first time. -/
def Obligations.PureStmeanWritesNothing : Prop :=
  Config.current.meanMutates = true ∧ ∀ (c : Params) (s : State.At c), c.meanMutates = false →
    ∃ (d : ResultWord) (st : BitVec 2),
      execStmeanAt c s = .next { s with rData := d, rStatus := st } ∧
      execStmeanAt c { s with rData := d, rStatus := st } = .next { s with rData := d, rStatus := st } ∧
      ∃ t : State.At c, execStmeanAt { c with meanMutates := true } s = .next t ∧ t.rData = d ∧ t.rStatus = st

/-- The mean of a class lies between its minimum and maximum while no STMEAN has touched the sums since the sync match (R142),
and every operation but STMEAN keeps that (R143). -/
def Obligations.FirstMeanLiesInRange : Prop :=
  (∀ (s : State) (b : Bool), s.regs.SumsUntouched → 1 ≤ s.regs.statCnt.class0.toNat → 1 ≤ (s.regs.statCnt.get b).toNat →
      ∃ m, s.regs.mean? b = some m ∧ (s.regs.statMin.get b).toNat ≤ m ∧ m ≤ (s.regs.statMax.get b).toNat) ∧
    ∀ (i : Instr) (s t : State), s.Inv → i ≠ .stmean → s.regs.SumsUntouched → exec i s = .next t →
      t.regs.SumsUntouched

/-! ## Checksum (43_crc.md) -/

/-- VALID answers 1 exactly when the CRC-8 of bytes 0 to 3 is byte 4, with status OK either way, and writes nothing (R151).
The checksum rests on CRC_INIT = 0x00, which the spec itself takes from outside its source (log 9). -/
def Obligations.ValidComparesTheChecksum : Prop :=
  decode 0x4000#16 = .valid ∧
    (∀ s : State, exec .valid s =
      .next { s with
        rData := if crc8 s.regs.packet.b0 s.regs.packet.b1 s.regs.packet.b2 s.regs.packet.b3 = s.regs.packet.b4
          then 1#40 else 0#40
        rStatus := 0b00#2 }) ∧
    crc8 0#8 0#8 0#8 0#8 = 0#8 ∧ crc8 0x2D#8 0x31#8 0x0A#8 0x48#8 = 0x08#8

/-- R150: for every start value, `crc8` is the bit-serial register fed with the 32 bits in their order of arrival, bit 7 of
byte 0 first: shift, and the constant 0x31 when the top bit and the data bit differ. -/
def Obligations.CrcIsBitSerial : Prop :=
  ∀ init b0 b1 b2 b3 : Byte,
    crc8From init b0 b1 b2 b3 =
      (bitsOfByte b0 ++ bitsOfByte b1 ++ bitsOfByte b2 ++ bitsOfByte b3).foldl
        (fun (crc : Byte) bit => if crc.msb != bit then crc <<< 1 ^^^ 0x31#8 else crc <<< 1) init

/-- R152: from start value 0 `crc8` is linear over exclusive-or; from every start value it detects every inverted bit of bytes
0 to 3, and VALID every inverted bit of byte 4; one step is multiplication by x modulo x^8 + x^5 + x^4 + 1 after the data bit
is added at x^7. -/
def Obligations.CrcDetectsSingleBitErrors : Prop :=
  (∀ a0 a1 a2 a3 b0 b1 b2 b3 : Byte,
      crc8From 0#8 (a0 ^^^ b0) (a1 ^^^ b1) (a2 ^^^ b2) (a3 ^^^ b3) =
        crc8From 0#8 a0 a1 a2 a3 ^^^ crc8From 0#8 b0 b1 b2 b3) ∧
    (∀ (n b0 b1 b2 b3 : Byte) (k : Nat), k < 8 →
      crc8From n (b0 ^^^ 1#8 <<< k) b1 b2 b3 ≠ crc8From n b0 b1 b2 b3 ∧
        crc8From n b0 (b1 ^^^ 1#8 <<< k) b2 b3 ≠ crc8From n b0 b1 b2 b3 ∧
        crc8From n b0 b1 (b2 ^^^ 1#8 <<< k) b3 ≠ crc8From n b0 b1 b2 b3 ∧
        crc8From n b0 b1 b2 (b3 ^^^ 1#8 <<< k) ≠ crc8From n b0 b1 b2 b3) ∧
    (∀ (c : Params) (s t : State.At c) (k : Nat), k < 8 →
      crc8From c.crcInit s.regs.packet.b0 s.regs.packet.b1 s.regs.packet.b2 s.regs.packet.b3 ^^^ 1#8 <<< k =
        s.regs.packet.b4 →
      execValidAt c s = .next t → t.rData = 0#40) ∧
    (∀ crc byte : Byte,
      (crcStep crc byte).toNat =
        let y := (crc ^^^ (byte &&& 0x80#8)).toNat
        if 256 ≤ 2 * y then (2 * y) ^^^ 0x131 else 2 * y)

/-! ## Fields (44_fields.md) -/

/-- R160: ID returns `packet[0]` and the high nibble of `packet[1]`; after an acquisition bit 11 is 0,
whether or not an ACQ has read the notice: a sync match since reset is enough, which the class-0 count tells. -/
def Obligations.IdReturnsTheSensorId : Prop :=
  decode 0x5000#16 = .id ∧
    (∀ s : State, exec .id s =
      .next { s with
        rData := BitVec.ofNat 40 (s.regs.packet.b0.toNat * 16 + s.regs.packet.b1.toNat / 16)
        rStatus := 0b00#2 }) ∧
    (∀ s t : State, s.Inv → (s.regs.acquired = true ∨ 1 ≤ s.regs.statCnt.class0.toNat) → exec .id s = .next t →
      t.rData.toNat ≤ 0x7FF)

/-- R161: HUM returns the raw byte `packet[3]`. -/
def Obligations.HumReturnsTheRawByte : Prop :=
  decode 0x6000#16 = .hum ∧
    ∀ s : State, exec .hum s =
      .next { s with rData := BitVec.ofNat 40 s.regs.packet.b3.toNat, rStatus := 0b00#2 }

/-- R162: TEMP returns the magnitude, negated when bit 3 of `packet[1]` is set, as a 16-bit two's complement number. -/
def Obligations.TempReturnsSignedTenths : Prop :=
  decode 0x7000#16 = .temp ∧
    ∀ s : State,
      let mag := s.regs.packet.b1.toNat % 8 * 256 + s.regs.packet.b2.toNat
      let t : Int := if s.regs.packet.b1.toNat / 8 % 2 = 1 then -(mag : Int) else mag
      exec .temp s = .next { s with rData := BitVec.ofNat 40 (t % 65536).toNat, rStatus := 0b00#2 } ∧
        -2047 ≤ t ∧ t ≤ 2047

/-- R163: TEMPTXT returns the sign bit, the whole part and the fraction digit of the magnitude, divided before any
negation. -/
def Obligations.TemptxtReturnsTheParts : Prop :=
  decode 0x8000#16 = .temptxt ∧
    ∀ s : State,
      let mag := s.regs.packet.b1.toNat % 8 * 256 + s.regs.packet.b2.toNat
      exec .temptxt s =
          .next { s with
            rData := BitVec.ofNat 40 (s.regs.packet.b1.toNat / 8 % 2 * 4096 + mag / 10 * 16 + mag % 10)
            rStatus := 0b00#2 } ∧
        mag / 10 ≤ 204 ∧ mag % 10 ≤ 9

/-- R164: a temperature text is a minus exactly when the sign bit is set, the one to three decimal digits of the whole part
without leading zeros, the point, and the fraction digit, so 3 to 6 characters; the four examples. -/
def Obligations.TextHasTheShape : Prop :=
  (∀ (sign : Bool) (whole fraction : Nat), whole ≤ 999 → fraction ≤ 9 →
      (∃ ds : List Byte,
        render sign whole fraction =
            (if sign then [0x2D#8] else []) ++ ds ++ [0x2E#8, BitVec.ofNat 8 (0x30 + fraction)] ∧
          1 ≤ ds.length ∧ ds.length ≤ 3 ∧ (∀ d ∈ ds, 0x30 ≤ d.toNat ∧ d.toNat ≤ 0x39) ∧
          ds.foldl (fun n d => 10 * n + (d.toNat - 0x30)) 0 = whole ∧ (ds.head? = some 0x30#8 → ds = [0x30#8])) ∧
        3 ≤ (render sign whole fraction).length ∧ (render sign whole fraction).length ≤ 6 ∧
        ((render sign whole fraction).head? = some 0x2D#8 ↔ sign = true)) ∧
    render false 26 6 = [0x32#8, 0x36#8, 0x2E#8, 0x36#8] ∧ render true 26 6 = [0x2D#8, 0x32#8, 0x36#8, 0x2E#8, 0x36#8] ∧
    render true 0 0 = [0x2D#8, 0x30#8, 0x2E#8, 0x30#8] ∧
    render false 204 7 = [0x32#8, 0x30#8, 0x34#8, 0x2E#8, 0x37#8]

/-- R165: the field functions on the result of a PKT agree with the operations at the state it was taken in. -/
def Obligations.SnapshotFieldsAgree : Prop :=
  ∀ s t : State, exec .pkt s = .next t →
    exec .id s = .next { s with rData := (snapshotId t.rData).setWidth 40, rStatus := 0b00#2 } ∧
    exec .hum s = .next { s with rData := (snapshotHumidity t.rData).setWidth 40, rStatus := 0b00#2 } ∧
    exec .temp s = .next { s with
      rData := temperatureWord
        (if snapshotSign t.rData then -((snapshotMagnitude t.rData).toNat : Int) else (snapshotMagnitude t.rData).toNat)
      rStatus := 0b00#2 } ∧
    exec .temptxt s = .next { s with
      rData := textWord (snapshotSign t.rData) ((snapshotMagnitude t.rData).toNat / 10)
        ((snapshotMagnitude t.rData).toNat % 10)
      rStatus := 0b00#2 } ∧
    exec .valid s = .next { s with
      rData := if crc8 (t.rData.extractLsb' 32 8) (t.rData.extractLsb' 24 8) (t.rData.extractLsb' 16 8)
          (t.rData.extractLsb' 8 8) = snapshotChecksum t.rData then 1#40 else 0#40
      rStatus := 0b00#2 }

/-! ## ACCEPT (40_accept.md) -/

/-- R101: for all admissible thresholds a duration is HIGH or LOW exactly inside its inclusive range and INVALID outside both;
the ranges of the default thresholds; an INVALID duration resets from every state. -/
def Obligations.ClassifierRanges : Prop :=
  (∀ (c : Params) (d : Nat), c.Admissible →
      (classifyAt c d = .high ↔ c.hiMin ≤ d ∧ d ≤ c.hiMax) ∧ (classifyAt c d = .low ↔ c.loMin ≤ d ∧ d ≤ c.loMax) ∧
        (classifyAt c d = .invalid ↔ ¬(c.hiMin ≤ d ∧ d ≤ c.hiMax) ∧ ¬(c.loMin ≤ d ∧ d ≤ c.loMax))) ∧
    (∀ d : Nat,
      (classify d = .high ↔ 13 ≤ d ∧ d ≤ 27) ∧ (classify d = .low ↔ 52 ≤ d ∧ d ≤ 68) ∧
        (classify d = .invalid ↔ d ≤ 12 ∨ (28 ≤ d ∧ d ≤ 51) ∨ 69 ≤ d)) ∧
    ∀ (d : Nat) (s : State), classify d = .invalid → ∃ t, exec (.accept d) s = .next t ∧ t.regs.state = .idle

/-- R103: an INVALID sample sets `state` to IDLE and writes nothing else, from every state; the result is 0 with status OK. -/
def Obligations.InvalidSampleOnlyResets : Prop :=
  ∀ (d : Nat) (s : State), classify d = .invalid →
    exec (.accept d) s =
      .next { s with regs := { s.regs with state := .idle }, rData := 0#40, rStatus := 0b00#2 }

/-- R186: any run of INVALID samples has the same effect as one, in every state: IDLE, and every other register as it was. -/
def Obligations.InvalidRunsActAsOne : Prop :=
  ∀ (ds : List Nat) (d : Nat) (s : State), ds ≠ [] → (∀ e ∈ ds, classify e = .invalid) → classify d = .invalid →
    runOps (ds.map .accept) s = exec (.accept d) s ∧
      exec (.accept d) s =
        .next { s with regs := { s.regs with state := .idle }, rData := 0#40, rStatus := 0b00#2 }

/-- R105 to R109: a valid sample of bit `b` outside ACQUIRING shifts the history (from 0xFF when it leaves IDLE); on the
pattern 110 the frame starts, and otherwise only `history` and `state` are written. -/
def Obligations.SearchShiftsAndMatches : Prop :=
  ∀ (d : Nat) (b : Bool) (s : State), (classify d).bit? = some b → s.regs.state ≠ .acquiring →
    let old := if s.regs.state = .idle then 255 else s.regs.history.toNat
    let new := (2 * old + b.toNat) % 256
    exec (.accept d) s =
      .next { s with
        regs :=
          if new % 8 = 6 then
            { state := .acquiring, acquired := s.regs.acquired, history := BitVec.ofNat 8 new,
              packet := ⟨0#8, 0#8, 0#8, 0#8, 0#8⟩, byteIdx := 0#3, bitIdx := 1#3,
              statMin := ⟨BitVec.ofNat 8 d, 69#8⟩, statMax := ⟨BitVec.ofNat 8 d, 0#8⟩,
              statSum := ⟨BitVec.ofNat 16 d, 0#16⟩, statCnt := ⟨1#8, 0#8⟩ }
          else { s.regs with state := .searching, history := BitVec.ofNat 8 new }
        rData := 0#40
        rStatus := 0b00#2 }

/-- R111 to R113, R115: a valid sample of bit `b` in ACQUIRING goes into the low end of the byte in progress, is folded into
the statistics of its own class, and advances the position; the fortieth bit sets `acquired` and returns to IDLE. -/
def Obligations.AcquiringStoresFoldsAndAdvances : Prop :=
  ∀ (d : Nat) (b : Bool) (s : State), (classify d).bit? = some b → s.regs.state = .acquiring →
    s.regs.byteIdx.toNat ≤ 4 →
    let pos := 8 * s.regs.byteIdx.toNat + s.regs.bitIdx.toNat
    ∃ r : Regs 16 8, exec (.accept d) s = .next { s with regs := r, rData := 0#40, rStatus := 0b00#2 } ∧
      (∀ j : Fin 5, (r.packet.read j).toNat =
        if j.val = s.regs.byteIdx.toNat then (2 * (s.regs.packet.read j).toNat + b.toNat) % 256
        else (s.regs.packet.read j).toNat) ∧
      8 * r.byteIdx.toNat + r.bitIdx.toNat = pos + 1 ∧
      r.state = (if pos = 39 then .idle else .acquiring) ∧
      r.acquired = (s.regs.acquired || pos == 39) ∧
      r.history = s.regs.history ∧
      (r.statMin.get b).toNat = min (s.regs.statMin.get b).toNat d ∧
      (r.statMax.get b).toNat = max (s.regs.statMax.get b).toNat d ∧
      (r.statSum.get b).toNat = ((s.regs.statSum.get b).toNat + d) % 2 ^ 16 ∧
      (r.statCnt.get b).toNat = ((s.regs.statCnt.get b).toNat + 1) % 2 ^ 8 ∧
      r.statMin.get (!b) = s.regs.statMin.get (!b) ∧ r.statMax.get (!b) = s.regs.statMax.get (!b) ∧
      r.statSum.get (!b) = s.regs.statSum.get (!b) ∧ r.statCnt.get (!b) = s.regs.statCnt.get (!b)

/-- R116: the whole table of the synchronizer's transitions, with the pattern test on the history the sample is shifted into
and the completion at position 39. -/
def Obligations.TransitionTable : Prop :=
  (∀ (d : Nat) (s t : State), exec (.accept d) s = .next t →
      (classify d = .invalid → t.regs.state = .idle) ∧
      (classify d ≠ .invalid → s.regs.state ≠ .acquiring →
        t.regs.state = (if t.regs.history.toNat % 8 = 6 then .acquiring else .searching)) ∧
      (classify d ≠ .invalid → s.regs.state = .acquiring →
        (if s.regs.byteIdx = 4#3 ∧ s.regs.bitIdx = 7#3 then t.regs.state = .idle ∧ t.regs.acquired = true
          else t.regs.state = .acquiring))) ∧
    (∀ (i : Instr) (s t : State), i.duration? = none → exec i s = .next t → t.regs.state = s.regs.state) ∧
    (∀ (c : Params) (u : Unspecified c.sumw) (s : State.At c), (s.resetWith u).regs.state = .idle)

/-- R114: what a valid sample leaves alone in each state. -/
def Obligations.AcceptFrame : Prop :=
  ∀ (d : Nat) (b : Bool) (s t : State), (classify d).bit? = some b → exec (.accept d) s = .next t →
    (s.regs.state ≠ .acquiring → t.regs.state = .searching →
      t.regs = { s.regs with state := .searching, history := t.regs.history }) ∧
    (s.regs.state ≠ .acquiring → t.regs.state = .acquiring → t.regs.acquired = s.regs.acquired) ∧
    (s.regs.state = .acquiring →
      t.regs.history = s.regs.history ∧
      (∀ j : Fin 5, j.val ≠ s.regs.byteIdx.toNat → t.regs.packet.read j = s.regs.packet.read j) ∧
      t.regs.statMin.get (!b) = s.regs.statMin.get (!b) ∧ t.regs.statMax.get (!b) = s.regs.statMax.get (!b) ∧
      t.regs.statSum.get (!b) = s.regs.statSum.get (!b) ∧ t.regs.statCnt.get (!b) = s.regs.statCnt.get (!b) ∧
      (t.regs.state ≠ .idle → t.regs.acquired = s.regs.acquired)) ∧
    t.inputs = s.inputs ∧ t.rData = 0#40 ∧ t.rStatus = 0b00#2

/-- Nothing is lost in the registers' widths: in every state of the invariant, for all admissible parameters, a sum or count
that a sample is folded into does not wrap, and no 1 bit leaves the byte a bit is stored in (00_scope.md R7, R111). -/
def Obligations.NothingWraps : Prop :=
  ∀ (c : Params) (r : Regs.At c) (d : Nat) (b : Bool), c.Admissible → RegsInv c r → r.state = .acquiring →
    (classifyAt c d).bit? = some b →
    ((r.fold d b).statSum.get b).toNat = (r.statSum.get b).toNat + d ∧
      ((r.fold d b).statCnt.get b).toNat = (r.statCnt.get b).toNat + 1 ∧
      (r.statSum.get b).toNat + d ≤ 40 * c.loMax ∧ (r.statCnt.get b).toNat + 1 ≤ 40 ∧
      ∀ i : Fin 5, i.val = r.byteIdx.toNat → (r.packet.read i).toNat < 128

/-- However many HIGH samples come first, the first LOW sample outside ACQUIRING starts the frame, with the same state after
it (10_state.md R32, 95_test_vectors.md V-SYNC-3). -/
def Obligations.PreambleLengthDoesNotMatter : Prop :=
  ∀ (highs : List Nat) (d : Nat) (s : State), s.Inv → s.regs.state ≠ .acquiring → (∀ e ∈ highs, classify e = .high) →
    classify d = .low →
    runOps ((highs ++ [d]).map .accept) s = exec (.accept d) s ∧
      ∃ t, exec (.accept d) s = .next t ∧ t.regs.state = .acquiring

/-! ## Invariants -/

/-- The invariant holds after reset, for every value the reset leaves open and for the named state `State.reset`. -/
def Obligations.ResetMeetsTheInvariant : Prop :=
  (∀ (c : Params) (u : Unspecified c.sumw), RegsInv c (resetRegs u : Regs.At c)) ∧ State.reset.Inv

/-- From every state of the invariant a step answers a next state, and it meets the invariant again: the block never stops
(70_reset_and_hazards.md R203). -/
def Obligations.StepKeepsTheInvariant : Prop :=
  ∀ s : State, s.Inv → ∃ t, step s = .next t ∧ t.Inv

/-- The same of the block with any admissible parameters. -/
def Obligations.StepKeepsTheInvariantForAllParameters : Prop :=
  ∀ (c : Params) (s : State.At c), c.Admissible → RegsInv c s.regs → ∃ t, stepAt c s = .next t ∧ RegsInv c t.regs

/-- ACCEPT keeps the registers' invariant for all admissible parameters, and does not fault. -/
def Obligations.AcceptKeepsTheInvariantForAllThresholds : Prop :=
  ∀ (c : Params) (d : Nat) (r : Regs.At c), c.Admissible → RegsInv c r → ∃ r', acceptRegs c d r = .ok r' ∧ RegsInv c r'

/-- R32: in every reachable state, for all admissible parameters, SEARCHING has history 0xFF, so the pattern test succeeds
exactly on the first LOW sample. -/
def Obligations.SearchingHistoryIsAllOnes : Prop :=
  ∀ (c : Params) (s : State.At c), c.Admissible → Reachable c s →
    (s.regs.state = .searching → s.regs.history = 0xFF#8) ∧
    (∀ d t, s.regs.state ≠ .acquiring → execAt c (.accept d) s = .next t →
      (classifyAt c d = .low → t.regs.history = 0xFE#8 ∧ t.regs.state = .acquiring) ∧
      (classifyAt c d = .high → t.regs.history = 0xFF#8 ∧ t.regs.state = .searching))

/-- R33: the position, the counts and the packet in every reachable state of ACQUIRING, for all admissible parameters. -/
def Obligations.AcquiringPosition : Prop :=
  ∀ (c : Params) (s : State.At c), c.Admissible → Reachable c s → s.regs.state = .acquiring →
    s.regs.byteIdx.toNat ≤ 4 ∧ s.regs.bitIdx.toNat ≤ 7 ∧ (s.regs.byteIdx, s.regs.bitIdx) ≠ (0#3, 0#3) ∧
      1 ≤ 8 * s.regs.byteIdx.toNat + s.regs.bitIdx.toNat ∧ 8 * s.regs.byteIdx.toNat + s.regs.bitIdx.toNat ≤ 39 ∧
      s.regs.statCnt.class0.toNat + s.regs.statCnt.class1.toNat = 8 * s.regs.byteIdx.toNat + s.regs.bitIdx.toNat ∧
      1 ≤ s.regs.statCnt.class0.toNat ∧
      (∀ j : Fin 5, s.regs.byteIdx.toNat < j.val → s.regs.packet.read j = 0x00#8) ∧
      (∀ j : Fin 5, j.val = s.regs.byteIdx.toNat →
        ∀ k, s.regs.bitIdx.toNat ≤ k → (s.regs.packet.read j).getLsbD k = false)

/-- R34: once a frame has completed since reset, bit 7 of `packet[0]` is 0 and the sensor id is at most 0x7FF, for all
admissible parameters. It holds as soon as a sync match has happened, which the class-0 count tells. -/
def Obligations.FirstBitIsZero : Prop :=
  ∀ (c : Params) (s : State.At c), c.Admissible → Reachable c s →
    (s.regs.acquired = true ∨ 1 ≤ s.regs.statCnt.class0.toNat) →
    s.regs.packet.b0.toNat ≤ 0x7F ∧ s.regs.packet.sensorId.toNat ≤ 0x7FF

/-- R145: the minimum and maximum of a class with samples lie in its legal range in every reachable state, for all admissible
parameters; a class without samples after a sync match reads LO_MAX + 1 and 0. -/
def Obligations.StatisticsStayInRange : Prop :=
  ∀ (c : Params) (s : State.At c), c.Admissible → Reachable c s → 1 ≤ s.regs.statCnt.class0.toNat →
    (c.loMin ≤ s.regs.statMin.class0.toNat ∧ s.regs.statMin.class0.toNat ≤ s.regs.statMax.class0.toNat ∧
        s.regs.statMax.class0.toNat ≤ c.loMax) ∧
      (1 ≤ s.regs.statCnt.class1.toNat →
        c.hiMin ≤ s.regs.statMin.class1.toNat ∧ s.regs.statMin.class1.toNat ≤ s.regs.statMax.class1.toNat ∧
          s.regs.statMax.class1.toNat ≤ c.hiMax) ∧
      (s.regs.statCnt.class1.toNat = 0 →
        s.regs.statMin.class1.toNat = c.loMax + 1 ∧ s.regs.statMax.class1.toNat = 0)

/-! ## Whole-machine rules -/

/-- R117: n HIGH samples and a frame, in any interleaving with other operations that ends with the frame's last sample, set
`acquired` and return to IDLE; no earlier operation sets it, also where an ACQ has cleared it meanwhile; the packet holds the
frame's bits, most significant first, and the statistics those of the frame's durations, the sums if no STMEAN came after the
preamble. -/
def Obligations.FrameIsReceived : Prop :=
  ∀ (s : State) (pre frame : List Nat) (ops : List Instr) (last : Nat),
    s.Inv → s.regs.state ≠ .acquiring → (∀ d ∈ pre, classify d = .high) → IsFrame frame →
    submitted (ops ++ [.accept last]) = pre ++ frame →
    (∀ k, k < ops.length → ∃ u v, runOps (ops.take k) s = .next u ∧ runOps (ops.take (k + 1)) s = .next v ∧
      (u.regs.acquired = false → v.regs.acquired = false)) ∧
    ∃ t, runOps (ops ++ [.accept last]) s = .next t ∧ t.regs.acquired = true ∧ t.regs.state = .idle ∧
      (∀ k j : Nat, ∀ hk : k < 5, j < 8 →
        (t.regs.packet.read ⟨k, hk⟩).getLsbD (7 - j) = (classify (frame.getD (8 * k + j) 0) == .high)) ∧
      (∀ b : Bool,
        (t.regs.statCnt.get b).toNat = (ofClass b frame).length ∧
        (t.regs.statMin.get b).toNat = (ofClass b frame).foldl min 69 ∧
        (t.regs.statMax.get b).toNat = (ofClass b frame).foldl max 0 ∧
        ∀ before after, ops = before ++ after → submitted before = pre → .stmean ∉ after →
          (t.regs.statSum.get b).toNat = (ofClass b frame).sum)

/-- However a producer's stream of ACCEPTs and a consumer's stream of other operations are merged, every register but
`acquired` and the sums ends as the producer's stream alone leaves it (20_memory.md R61, 40_accept.md R117). -/
def Obligations.AcquisitionIgnoresTheConsumer : Prop :=
  ∀ (p c m : List Instr) (s : State), s.Inv → IsMerge p c m → (∀ i ∈ p, i.duration? ≠ none) →
    (∀ i ∈ c, i.duration? = none) →
    ∃ t u, runOps m s = .next t ∧ runOps p s = .next u ∧ t.regs.SameAcquisition u.regs

/-- Outside ACQUIRING, while no LOW sample is submitted and no reset is applied, the packet and the statistics stand as they
are; the sums too, without STMEAN (70_reset_and_hazards.md R207; the premise that the block is not already in the next frame is
the model's reading, log 19). -/
def Obligations.PacketStandsUntilTheNextLowSample : Prop :=
  ∀ (ops : List Instr) (s : State), s.Inv → s.regs.state ≠ .acquiring → noLowSample ops = true →
    ∃ t, runOps ops s = .next t ∧ t.regs.packet = s.regs.packet ∧ t.regs.statMin = s.regs.statMin ∧
      t.regs.statMax = s.regs.statMax ∧ t.regs.statCnt = s.regs.statCnt ∧
      ((.stmean ∉ ops) → t.regs.statSum = s.regs.statSum)

/-- The next frame's first sample is silent to a consumer: PKT then returns zeros, VALID passes, and ACQ still announces the
completed frame (70_reset_and_hazards.md R206, R209, R212). That the zeros pass rests on CRC_INIT = 0x00 (log 9). -/
def Obligations.NextFrameZeroesTheUnreadPacket : Prop :=
  ∀ (d : Nat) (s : State), s.Inv → s.regs.state ≠ .acquiring → classify d = .low →
    ∃ t u v w, exec (.accept d) s = .next t ∧ t.regs.acquired = s.regs.acquired ∧
      exec .pkt t = .next u ∧ u.rData = 0#40 ∧ exec .valid t = .next v ∧ v.rData = 1#40 ∧
      exec .acq t = .next w ∧ w.rData = if s.regs.acquired then 1#40 else 0#40

/-- R29: an operation changes no register the access matrix does not let it write, and what it returns and writes depends on
the registers the matrix lets it read alone: two states that agree on those get the same result, and each register either gets
the same value in both or is left alone in both. -/
def Obligations.AccessMatrixHolds : Prop :=
  (∀ (i : Instr) (s t : State) (g : Reg), exec i s = .next t → writes i g = false → t.regs.Agree g s.regs) ∧
    ∀ (i : Instr) (s s' t t' : State), (∀ g, reads i g = true → s.regs.Agree g s'.regs) → exec i s = .next t →
      exec i s' = .next t' →
      t.rData = t'.rData ∧ t.rStatus = t'.rStatus ∧
        ∀ g, t.regs.Agree g t'.regs ∨ (t.regs.Agree g s.regs ∧ t'.regs.Agree g s'.regs)

/-- R58: a query other than ACQ and STMEAN changes no register, and repeated at once it returns the same. -/
def Obligations.QueriesRepeat : Prop :=
  ∀ i ∈ [Instr.pkt, .valid, .id, .hum, .temp, .temptxt, .stmin, .stmax], ∀ s : State,
    ∃ t, exec i s = .next t ∧ t.regs = s.regs ∧ exec i t = .next t

/-- R210: a driver that saturates keeps the classification of every duration, for all admissible parameters, and for a
measurement beyond the operand any other value above LO_MAX does; one that truncates does not. -/
def Obligations.SaturationKeepsTheClass : Prop :=
  (∀ (c : Params) (measured : Nat), c.Admissible →
      classifyAt c (saturate c.dw measured) = classifyAt c measured ∧ saturate c.dw measured < 2 ^ c.dw ∧
        (2 ^ c.dw - 1 < measured → ∀ v, c.loMax < v → classifyAt c v = classifyAt c measured)) ∧
    classify 276 = .invalid ∧ classify (276 % 2 ^ 8) = .high

/-- R89: from any state of the invariant outside ACQUIRING, the cycles of the line `FRAME v0 v1 v2 v3 v4` leave exactly those
bytes in the packet and set `acquired`. -/
def Obligations.AssembledFrameIsReceived : Prop :=
  ∀ (v0 v1 v2 v3 v4 : Byte) (s : State) (rest : List Cycle), v0.getLsbD 7 = false → s.Inv → s.regs.state ≠ .acquiring →
    ∃ cycles t, (AsmLine.frame v0 v1 v2 v3 v4).cycles = some cycles ∧ cycles.length = 40 ∧
      Host.Core.run Sys2Proof.core 40 { s with inputs := cycles ++ rest } = .next t ∧
      t.inputs = rest ∧ t.regs.packet = ⟨v0, v1, v2, v3, v4⟩ ∧ t.regs.acquired = true ∧ t.regs.state = .idle
end

