-- ==== Sys2Proof/Laws/Ops.lean ====
section
/-! SUPPORT. Read after write for the packet space and the statistics arrays, and what index names a byte. -/

namespace Sys2Proof

namespace PerClass

variable {α : Type} (a : PerClass α) (v : α)

@[simp] theorem get_true : a.get true = a.class1 := rfl
@[simp] theorem get_false : a.get false = a.class0 := rfl
@[simp] theorem set_true : a.set true v = ⟨a.class0, v⟩ := rfl
@[simp] theorem set_false : a.set false v = ⟨v, a.class1⟩ := rfl

theorem get_set_same (c : Bool) : (a.set c v).get c = v := by cases c <;> rfl

theorem get_set_other (c : Bool) : (a.set c v).get (!c) = a.get (!c) := by cases c <;> rfl

theorem ext_get {a b : PerClass α} (h : ∀ c, a.get c = b.get c) : a = b := by
  cases a; cases b
  simp only [PerClass.mk.injEq]
  exact ⟨h false, h true⟩

end PerClass

namespace Packet

@[simp] theorem read_0 (p : Packet) : p.read 0 = p.b0 := rfl
@[simp] theorem read_1 (p : Packet) : p.read 1 = p.b1 := rfl
@[simp] theorem read_2 (p : Packet) : p.read 2 = p.b2 := rfl
@[simp] theorem read_3 (p : Packet) : p.read 3 = p.b3 := rfl
@[simp] theorem read_4 (p : Packet) : p.read 4 = p.b4 := rfl

@[simp] theorem read_zero (i : Fin 5) : Packet.zero.read i = 0x00#8 := by
  match i with
  | 0 | 1 | 2 | 3 | 4 => rfl

@[simp] theorem zero_b0 : Packet.zero.b0 = 0x00#8 := rfl

theorem read_write_same (p : Packet) (i : Fin 5) (v : Byte) : (p.write i v).read i = v := by
  match i with
  | 0 | 1 | 2 | 3 | 4 => rfl

theorem read_write_other (p : Packet) {i j : Fin 5} (v : Byte) (h : j ≠ i) : (p.write i v).read j = p.read j := by
  match i, j with
  | 0, 0 | 1, 1 | 2, 2 | 3, 3 | 4, 4 => exact absurd rfl h
  | 0, 1 | 0, 2 | 0, 3 | 0, 4 | 1, 0 | 1, 2 | 1, 3 | 1, 4 | 2, 0 | 2, 1 | 2, 3 | 2, 4 => rfl
  | 3, 0 | 3, 1 | 3, 2 | 3, 4 | 4, 0 | 4, 1 | 4, 2 | 4, 3 => rfl

theorem read_write (p : Packet) (i j : Fin 5) (v : Byte) :
    (p.write i v).read j = if j = i then v else p.read j := by
  split
  next h => rw [h, read_write_same]
  next h => exact read_write_other p v h

theorem ext_read {p q : Packet} (h : ∀ i, p.read i = q.read i) : p = q := by
  cases p; cases q
  simp only [Packet.mk.injEq]
  exact ⟨h 0, h 1, h 2, h 3, h 4⟩

end Packet

namespace Machine

theorem packetIndex_eq_some {b : BitVec 3} {i : Fin 5} : packetIndex b = some i ↔ b.toNat = i.val := by
  unfold packetIndex
  split
  · simp [Fin.ext_iff]
  · simp; omega

theorem packetIndex_eq_none {b : BitVec 3} : packetIndex b = none ↔ 5 ≤ b.toNat := by
  unfold packetIndex
  split <;> simp <;> omega

end Machine

end Sys2Proof
end

