-- ==== Sys2Proof/Laws/State.lean ====
section
/-! SUPPORT. One lemma per field per named update of the registers and of the state, all true by unfolding the update once. -/

namespace Sys2Proof.Machine

variable {sw cw : Nat}

namespace Regs

@[simp] theorem syncReset_state (r : Regs sw cw) : (r.syncReset).state = .idle := rfl
@[simp] theorem syncReset_acquired (r : Regs sw cw) : (r.syncReset).acquired = r.acquired := rfl
@[simp] theorem syncReset_history (r : Regs sw cw) : (r.syncReset).history = r.history := rfl
@[simp] theorem syncReset_packet (r : Regs sw cw) : (r.syncReset).packet = r.packet := rfl
@[simp] theorem syncReset_byteIdx (r : Regs sw cw) : (r.syncReset).byteIdx = r.byteIdx := rfl
@[simp] theorem syncReset_bitIdx (r : Regs sw cw) : (r.syncReset).bitIdx = r.bitIdx := rfl
@[simp] theorem syncReset_statMin (r : Regs sw cw) : (r.syncReset).statMin = r.statMin := rfl
@[simp] theorem syncReset_statMax (r : Regs sw cw) : (r.syncReset).statMax = r.statMax := rfl
@[simp] theorem syncReset_statSum (r : Regs sw cw) : (r.syncReset).statSum = r.statSum := rfl
@[simp] theorem syncReset_statCnt (r : Regs sw cw) : (r.syncReset).statCnt = r.statCnt := rfl

@[simp] theorem leaveIdle_state (r : Regs sw cw) : (r.leaveIdle).state = .searching := rfl
@[simp] theorem leaveIdle_acquired (r : Regs sw cw) : (r.leaveIdle).acquired = r.acquired := rfl
@[simp] theorem leaveIdle_history (r : Regs sw cw) : (r.leaveIdle).history = 0xFF#8 := rfl
@[simp] theorem leaveIdle_packet (r : Regs sw cw) : (r.leaveIdle).packet = r.packet := rfl
@[simp] theorem leaveIdle_byteIdx (r : Regs sw cw) : (r.leaveIdle).byteIdx = r.byteIdx := rfl
@[simp] theorem leaveIdle_bitIdx (r : Regs sw cw) : (r.leaveIdle).bitIdx = r.bitIdx := rfl
@[simp] theorem leaveIdle_statMin (r : Regs sw cw) : (r.leaveIdle).statMin = r.statMin := rfl
@[simp] theorem leaveIdle_statMax (r : Regs sw cw) : (r.leaveIdle).statMax = r.statMax := rfl
@[simp] theorem leaveIdle_statSum (r : Regs sw cw) : (r.leaveIdle).statSum = r.statSum := rfl
@[simp] theorem leaveIdle_statCnt (r : Regs sw cw) : (r.leaveIdle).statCnt = r.statCnt := rfl

@[simp] theorem completeFrame_state (r : Regs sw cw) : (r.completeFrame).state = .idle := rfl
@[simp] theorem completeFrame_acquired (r : Regs sw cw) : (r.completeFrame).acquired = true := rfl
@[simp] theorem completeFrame_history (r : Regs sw cw) : (r.completeFrame).history = r.history := rfl
@[simp] theorem completeFrame_packet (r : Regs sw cw) : (r.completeFrame).packet = r.packet := rfl
@[simp] theorem completeFrame_byteIdx (r : Regs sw cw) : (r.completeFrame).byteIdx = r.byteIdx := rfl
@[simp] theorem completeFrame_bitIdx (r : Regs sw cw) : (r.completeFrame).bitIdx = r.bitIdx := rfl
@[simp] theorem completeFrame_statMin (r : Regs sw cw) : (r.completeFrame).statMin = r.statMin := rfl
@[simp] theorem completeFrame_statMax (r : Regs sw cw) : (r.completeFrame).statMax = r.statMax := rfl
@[simp] theorem completeFrame_statSum (r : Regs sw cw) : (r.completeFrame).statSum = r.statSum := rfl
@[simp] theorem completeFrame_statCnt (r : Regs sw cw) : (r.completeFrame).statCnt = r.statCnt := rfl

@[simp] theorem clearAcquired_state (r : Regs sw cw) : (r.clearAcquired).state = r.state := rfl
@[simp] theorem clearAcquired_acquired (r : Regs sw cw) : (r.clearAcquired).acquired = false := rfl
@[simp] theorem clearAcquired_history (r : Regs sw cw) : (r.clearAcquired).history = r.history := rfl
@[simp] theorem clearAcquired_packet (r : Regs sw cw) : (r.clearAcquired).packet = r.packet := rfl
@[simp] theorem clearAcquired_byteIdx (r : Regs sw cw) : (r.clearAcquired).byteIdx = r.byteIdx := rfl
@[simp] theorem clearAcquired_bitIdx (r : Regs sw cw) : (r.clearAcquired).bitIdx = r.bitIdx := rfl
@[simp] theorem clearAcquired_statMin (r : Regs sw cw) : (r.clearAcquired).statMin = r.statMin := rfl
@[simp] theorem clearAcquired_statMax (r : Regs sw cw) : (r.clearAcquired).statMax = r.statMax := rfl
@[simp] theorem clearAcquired_statSum (r : Regs sw cw) : (r.clearAcquired).statSum = r.statSum := rfl
@[simp] theorem clearAcquired_statCnt (r : Regs sw cw) : (r.clearAcquired).statCnt = r.statCnt := rfl

@[simp] theorem shiftHistory_state (b : Bool) (r : Regs sw cw) : (r.shiftHistory b).state = r.state := rfl
@[simp] theorem shiftHistory_acquired (b : Bool) (r : Regs sw cw) : (r.shiftHistory b).acquired = r.acquired := rfl
@[simp] theorem shiftHistory_history (b : Bool) (r : Regs sw cw) : (r.shiftHistory b).history = r.history <<< 1 ||| (BitVec.ofBool b).setWidth 8 := rfl
@[simp] theorem shiftHistory_packet (b : Bool) (r : Regs sw cw) : (r.shiftHistory b).packet = r.packet := rfl
@[simp] theorem shiftHistory_byteIdx (b : Bool) (r : Regs sw cw) : (r.shiftHistory b).byteIdx = r.byteIdx := rfl
@[simp] theorem shiftHistory_bitIdx (b : Bool) (r : Regs sw cw) : (r.shiftHistory b).bitIdx = r.bitIdx := rfl
@[simp] theorem shiftHistory_statMin (b : Bool) (r : Regs sw cw) : (r.shiftHistory b).statMin = r.statMin := rfl
@[simp] theorem shiftHistory_statMax (b : Bool) (r : Regs sw cw) : (r.shiftHistory b).statMax = r.statMax := rfl
@[simp] theorem shiftHistory_statSum (b : Bool) (r : Regs sw cw) : (r.shiftHistory b).statSum = r.statSum := rfl
@[simp] theorem shiftHistory_statCnt (b : Bool) (r : Regs sw cw) : (r.shiftHistory b).statCnt = r.statCnt := rfl

@[simp] theorem nextByte_state (r : Regs sw cw) : (r.nextByte).state = r.state := rfl
@[simp] theorem nextByte_acquired (r : Regs sw cw) : (r.nextByte).acquired = r.acquired := rfl
@[simp] theorem nextByte_history (r : Regs sw cw) : (r.nextByte).history = r.history := rfl
@[simp] theorem nextByte_packet (r : Regs sw cw) : (r.nextByte).packet = r.packet := rfl
@[simp] theorem nextByte_byteIdx (r : Regs sw cw) : (r.nextByte).byteIdx = r.byteIdx + 1 := rfl
@[simp] theorem nextByte_bitIdx (r : Regs sw cw) : (r.nextByte).bitIdx = 0 := rfl
@[simp] theorem nextByte_statMin (r : Regs sw cw) : (r.nextByte).statMin = r.statMin := rfl
@[simp] theorem nextByte_statMax (r : Regs sw cw) : (r.nextByte).statMax = r.statMax := rfl
@[simp] theorem nextByte_statSum (r : Regs sw cw) : (r.nextByte).statSum = r.statSum := rfl
@[simp] theorem nextByte_statCnt (r : Regs sw cw) : (r.nextByte).statCnt = r.statCnt := rfl

@[simp] theorem storeBit_state (i : Fin 5) (b : Bool) (r : Regs sw cw) : (r.storeBit i b).state = r.state := rfl
@[simp] theorem storeBit_acquired (i : Fin 5) (b : Bool) (r : Regs sw cw) : (r.storeBit i b).acquired = r.acquired := rfl
@[simp] theorem storeBit_history (i : Fin 5) (b : Bool) (r : Regs sw cw) : (r.storeBit i b).history = r.history := rfl
@[simp] theorem storeBit_packet (i : Fin 5) (b : Bool) (r : Regs sw cw) : (r.storeBit i b).packet = r.packet.write i (r.packet.read i <<< 1 ||| (BitVec.ofBool b).setWidth 8) := rfl
@[simp] theorem storeBit_byteIdx (i : Fin 5) (b : Bool) (r : Regs sw cw) : (r.storeBit i b).byteIdx = r.byteIdx := rfl
@[simp] theorem storeBit_bitIdx (i : Fin 5) (b : Bool) (r : Regs sw cw) : (r.storeBit i b).bitIdx = r.bitIdx := rfl
@[simp] theorem storeBit_statMin (i : Fin 5) (b : Bool) (r : Regs sw cw) : (r.storeBit i b).statMin = r.statMin := rfl
@[simp] theorem storeBit_statMax (i : Fin 5) (b : Bool) (r : Regs sw cw) : (r.storeBit i b).statMax = r.statMax := rfl
@[simp] theorem storeBit_statSum (i : Fin 5) (b : Bool) (r : Regs sw cw) : (r.storeBit i b).statSum = r.statSum := rfl
@[simp] theorem storeBit_statCnt (i : Fin 5) (b : Bool) (r : Regs sw cw) : (r.storeBit i b).statCnt = r.statCnt := rfl

@[simp] theorem resetStats_state (c : Params) (r : Regs sw cw) : (r.resetStats c).state = r.state := rfl
@[simp] theorem resetStats_acquired (c : Params) (r : Regs sw cw) : (r.resetStats c).acquired = r.acquired := rfl
@[simp] theorem resetStats_history (c : Params) (r : Regs sw cw) : (r.resetStats c).history = r.history := rfl
@[simp] theorem resetStats_packet (c : Params) (r : Regs sw cw) : (r.resetStats c).packet = r.packet := rfl
@[simp] theorem resetStats_byteIdx (c : Params) (r : Regs sw cw) : (r.resetStats c).byteIdx = r.byteIdx := rfl
@[simp] theorem resetStats_bitIdx (c : Params) (r : Regs sw cw) : (r.resetStats c).bitIdx = r.bitIdx := rfl
@[simp] theorem resetStats_statMin (c : Params) (r : Regs sw cw) : (r.resetStats c).statMin = ⟨BitVec.ofNat 8 c.statMinInit, BitVec.ofNat 8 c.statMinInit⟩ := rfl
@[simp] theorem resetStats_statMax (c : Params) (r : Regs sw cw) : (r.resetStats c).statMax = ⟨0x00#8, 0x00#8⟩ := rfl
@[simp] theorem resetStats_statSum (c : Params) (r : Regs sw cw) : (r.resetStats c).statSum = ⟨0, 0⟩ := rfl
@[simp] theorem resetStats_statCnt (c : Params) (r : Regs sw cw) : (r.resetStats c).statCnt = ⟨0, 0⟩ := rfl

@[simp] theorem fold_state (d : Nat) (b : Bool) (r : Regs sw cw) : (r.fold d b).state = r.state := rfl
@[simp] theorem fold_acquired (d : Nat) (b : Bool) (r : Regs sw cw) : (r.fold d b).acquired = r.acquired := rfl
@[simp] theorem fold_history (d : Nat) (b : Bool) (r : Regs sw cw) : (r.fold d b).history = r.history := rfl
@[simp] theorem fold_packet (d : Nat) (b : Bool) (r : Regs sw cw) : (r.fold d b).packet = r.packet := rfl
@[simp] theorem fold_byteIdx (d : Nat) (b : Bool) (r : Regs sw cw) : (r.fold d b).byteIdx = r.byteIdx := rfl
@[simp] theorem fold_bitIdx (d : Nat) (b : Bool) (r : Regs sw cw) : (r.fold d b).bitIdx = r.bitIdx := rfl
@[simp] theorem fold_statMin (d : Nat) (b : Bool) (r : Regs sw cw) : (r.fold d b).statMin = 
    if d < (r.statMin.get b).toNat then r.statMin.set b (BitVec.ofNat 8 d) else r.statMin := rfl
@[simp] theorem fold_statMax (d : Nat) (b : Bool) (r : Regs sw cw) : (r.fold d b).statMax = 
    if (r.statMax.get b).toNat < d then r.statMax.set b (BitVec.ofNat 8 d) else r.statMax := rfl
@[simp] theorem fold_statSum (d : Nat) (b : Bool) (r : Regs sw cw) : (r.fold d b).statSum = r.statSum.set b (r.statSum.get b + BitVec.ofNat sw d) := rfl
@[simp] theorem fold_statCnt (d : Nat) (b : Bool) (r : Regs sw cw) : (r.fold d b).statCnt = r.statCnt.set b (r.statCnt.get b + 1) := rfl

@[simp] theorem storeMean_state (c : Bool) (r : Regs sw cw) : (r.storeMean c).state = r.state := by
  unfold storeMean; split <;> rfl
@[simp] theorem storeMean_acquired (c : Bool) (r : Regs sw cw) : (r.storeMean c).acquired = r.acquired := by
  unfold storeMean; split <;> rfl
@[simp] theorem storeMean_history (c : Bool) (r : Regs sw cw) : (r.storeMean c).history = r.history := by
  unfold storeMean; split <;> rfl
@[simp] theorem storeMean_packet (c : Bool) (r : Regs sw cw) : (r.storeMean c).packet = r.packet := by
  unfold storeMean; split <;> rfl
@[simp] theorem storeMean_byteIdx (c : Bool) (r : Regs sw cw) : (r.storeMean c).byteIdx = r.byteIdx := by
  unfold storeMean; split <;> rfl
@[simp] theorem storeMean_bitIdx (c : Bool) (r : Regs sw cw) : (r.storeMean c).bitIdx = r.bitIdx := by
  unfold storeMean; split <;> rfl
@[simp] theorem storeMean_statMin (c : Bool) (r : Regs sw cw) : (r.storeMean c).statMin = r.statMin := by
  unfold storeMean; split <;> rfl
@[simp] theorem storeMean_statMax (c : Bool) (r : Regs sw cw) : (r.storeMean c).statMax = r.statMax := by
  unfold storeMean; split <;> rfl
@[simp] theorem storeMean_statCnt (c : Bool) (r : Regs sw cw) : (r.storeMean c).statCnt = r.statCnt := by
  unfold storeMean; split <;> rfl

@[simp] theorem syncMatch_state (c : Params) (d : Nat) (b : Bool) (r : Regs sw cw) : (r.syncMatch c d b).state = .acquiring := rfl
@[simp] theorem syncMatch_acquired (c : Params) (d : Nat) (b : Bool) (r : Regs sw cw) : (r.syncMatch c d b).acquired = r.acquired := rfl
@[simp] theorem syncMatch_history (c : Params) (d : Nat) (b : Bool) (r : Regs sw cw) : (r.syncMatch c d b).history = r.history := rfl
@[simp] theorem syncMatch_packet (c : Params) (d : Nat) (b : Bool) (r : Regs sw cw) : (r.syncMatch c d b).packet = Packet.zero := rfl
@[simp] theorem syncMatch_byteIdx (c : Params) (d : Nat) (b : Bool) (r : Regs sw cw) : (r.syncMatch c d b).byteIdx = 0 := rfl
@[simp] theorem syncMatch_bitIdx (c : Params) (d : Nat) (b : Bool) (r : Regs sw cw) : (r.syncMatch c d b).bitIdx = 1 := rfl

end Regs

namespace State.Of

@[simp] theorem respond_regs (r : Regs sw cw) (d : ResultWord) (st : Status) (s : State.Of sw cw) : (s.respond r d st).regs = r := rfl
@[simp] theorem respond_inputs (r : Regs sw cw) (d : ResultWord) (st : Status) (s : State.Of sw cw) : (s.respond r d st).inputs = s.inputs := rfl
@[simp] theorem respond_rData (r : Regs sw cw) (d : ResultWord) (st : Status) (s : State.Of sw cw) : (s.respond r d st).rData = d := rfl
@[simp] theorem respond_rStatus (r : Regs sw cw) (d : ResultWord) (st : Status) (s : State.Of sw cw) : (s.respond r d st).rStatus = st.code := rfl
@[simp] theorem respond_freeCount (r : Regs sw cw) (d : ResultWord) (st : Status) (s : State.Of sw cw) : (s.respond r d st).freeCount = s.freeCount := rfl

@[simp] theorem resetWith_regs (u : Unspecified sw) (s : State.Of sw cw) : (s.resetWith u).regs = resetRegs u := rfl
@[simp] theorem resetWith_inputs (u : Unspecified sw) (s : State.Of sw cw) : (s.resetWith u).inputs = s.inputs := rfl
@[simp] theorem resetWith_rData (u : Unspecified sw) (s : State.Of sw cw) : (s.resetWith u).rData = u.rData := rfl
@[simp] theorem resetWith_rStatus (u : Unspecified sw) (s : State.Of sw cw) : (s.resetWith u).rStatus = u.rStatus := rfl
@[simp] theorem resetWith_freeCount (u : Unspecified sw) (s : State.Of sw cw) : (s.resetWith u).freeCount = s.freeCount := rfl

@[simp] theorem takeReset_regs (s : State.Of sw cw) : (s.takeReset).regs = resetRegs (Config.unspecifiedAtReset sw s.freeCount) := rfl
@[simp] theorem takeReset_inputs (s : State.Of sw cw) : (s.takeReset).inputs = s.inputs := rfl
@[simp] theorem takeReset_rData (s : State.Of sw cw) : (s.takeReset).rData = (Config.unspecifiedAtReset sw s.freeCount).rData := rfl
@[simp] theorem takeReset_rStatus (s : State.Of sw cw) : (s.takeReset).rStatus = (Config.unspecifiedAtReset sw s.freeCount).rStatus := rfl
@[simp] theorem takeReset_freeCount (s : State.Of sw cw) : (s.takeReset).freeCount = s.freeCount + 1 := rfl

@[simp] theorem presentWord_regs (w : OpWord) (s : State.Of sw cw) : (s.presentWord w).regs = s.regs := rfl
@[simp] theorem presentWord_inputs (w : OpWord) (s : State.Of sw cw) : (s.presentWord w).inputs = Cycle.present w :: s.inputs := rfl
@[simp] theorem presentWord_rData (w : OpWord) (s : State.Of sw cw) : (s.presentWord w).rData = s.rData := rfl
@[simp] theorem presentWord_rStatus (w : OpWord) (s : State.Of sw cw) : (s.presentWord w).rStatus = s.rStatus := rfl
@[simp] theorem presentWord_freeCount (w : OpWord) (s : State.Of sw cw) : (s.presentWord w).freeCount = s.freeCount := rfl

end State.Of

@[simp] theorem resetRegs_state (u : Unspecified sw) : (resetRegs u : Regs sw cw).state = .idle := rfl
@[simp] theorem resetRegs_acquired (u : Unspecified sw) : (resetRegs u : Regs sw cw).acquired = false := rfl
@[simp] theorem resetRegs_history (u : Unspecified sw) : (resetRegs u : Regs sw cw).history = u.history := rfl
@[simp] theorem resetRegs_packet (u : Unspecified sw) : (resetRegs u : Regs sw cw).packet = u.packet := rfl
@[simp] theorem resetRegs_byteIdx (u : Unspecified sw) : (resetRegs u : Regs sw cw).byteIdx = u.byteIdx := rfl
@[simp] theorem resetRegs_bitIdx (u : Unspecified sw) : (resetRegs u : Regs sw cw).bitIdx = u.bitIdx := rfl
@[simp] theorem resetRegs_statMin (u : Unspecified sw) : (resetRegs u : Regs sw cw).statMin = u.statMin := rfl
@[simp] theorem resetRegs_statMax (u : Unspecified sw) : (resetRegs u : Regs sw cw).statMax = u.statMax := rfl
@[simp] theorem resetRegs_statSum (u : Unspecified sw) : (resetRegs u : Regs sw cw).statSum = u.statSum := rfl
@[simp] theorem resetRegs_statCnt (u : Unspecified sw) : (resetRegs u : Regs sw cw).statCnt = ⟨0, 0⟩ := rfl

end Sys2Proof.Machine
end

