-- ==== Sys2Proof/Laws/Accept.lean ====
section
/-! SUPPORT. Everything ACCEPT can do to the registers, said once: the classifier's ranges, the shift and the pattern test in
arithmetic, the sync match, the position, and the inversion of `acceptRegs`. -/

namespace Sys2Proof

theorem bit?_eq_none {y : Symbol} : y.bit? = none ↔ y = .invalid := by cases y <;> decide

theorem bit?_eq_true {y : Symbol} : y.bit? = some true ↔ y = .high := by cases y <;> decide

theorem bit?_eq_false {y : Symbol} : y.bit? = some false ↔ y = .low := by cases y <;> decide

theorem classifyAt_high {c : Params} {d : Nat} : classifyAt c d = .high ↔ c.hiMin ≤ d ∧ d ≤ c.hiMax := by
  unfold classifyAt
  split
  · simp_all
  · split <;> simp_all

theorem classifyAt_low {c : Params} {d : Nat} (h : c.hiMax < c.loMin) :
    classifyAt c d = .low ↔ c.loMin ≤ d ∧ d ≤ c.loMax := by
  unfold classifyAt
  split
  · simp; omega
  · split <;> simp_all

/-- Shifting a bit in at the low end of a byte doubles it and drops what leaves the top. -/
theorem shiftIn_toNat (x : Byte) (b : Bool) :
    (x <<< 1 ||| (BitVec.ofBool b).setWidth 8).toNat = (2 * x.toNat + b.toNat) % 256 := by
  have hx := x.isLt
  cases b
  · simp [Nat.shiftLeft_eq, Nat.mul_comm]
  · have h := Nat.two_pow_add_eq_or_of_lt (i := 1) (b := 1) (by omega) (x.toNat % 128)
    have h2 : x.toNat * 2 % 256 = 2 ^ 1 * (x.toNat % 128) := by omega
    simp only [BitVec.toNat_or, BitVec.toNat_shiftLeft, Nat.shiftLeft_eq, pow_one, BitVec.ofBool_true,
      BitVec.toNat_setWidth, Bool.toNat_true]
    rw [h2, show BitVec.toNat (1 : BitVec 1) % 2 ^ 8 = 1 by rfl, ← h]
    omega

theorem pattern_iff (x : Byte) : (x &&& Config.syncMask == Config.syncPattern) = true ↔ x.toNat % 8 = 6 := by
  have h : (x &&& 0x07#8).toNat = x.toNat % 8 := Nat.and_two_pow_sub_one_eq_mod x.toNat 3
  rw [beq_iff_eq, ← BitVec.toNat_inj]
  simp only [Config.syncMask, Config.syncPattern, h]
  rfl

namespace Machine

variable {sw cw : Nat}

namespace Regs

theorem patternMatches_iff (r : Regs sw cw) : r.patternMatches = true ↔ r.history.toNat % 8 = 6 := pattern_iff r.history

/-- The SEARCHING step: a match exactly when the shifted history ends in 110. -/
theorem search_eq (c : Params) (d : Nat) (b : Bool) (r : Regs sw cw) :
    r.search c d b =
      if (2 * r.history.toNat + b.toNat) % 8 = 6 then (r.shiftHistory b).syncMatch c d b else r.shiftHistory b := by
  have h : (r.shiftHistory b).history.toNat % 8 = (2 * r.history.toNat + b.toNat) % 8 := by
    rw [shiftHistory_history, shiftIn_toNat]
    omega
  unfold search
  simp only [patternMatches_iff, h]

/-- A match needs a 0: the pattern 110 ends in one (40_accept.md R108). -/
theorem match_bit_false {h : Nat} {b : Bool} (hm : (2 * h + b.toNat) % 8 = 6) : b = false := by
  cases b
  · rfl
  · simp only [Bool.toNat_true] at hm; omega

/-- The registers a sync match leaves: the sample is the one sample of class 0. -/
theorem syncMatch_low (c : Params) (d : Nat) (r : Regs sw cw) (hd : d ≤ c.loMax) (hc : c.loMax ≤ 254) :
    r.syncMatch c d false =
      { r with
        state := .acquiring, packet := Packet.zero, byteIdx := 0, bitIdx := 1
        statMin := ⟨BitVec.ofNat 8 d, BitVec.ofNat 8 (c.loMax + 1)⟩, statMax := ⟨BitVec.ofNat 8 d, 0x00#8⟩
        statSum := ⟨BitVec.ofNat sw d, 0⟩, statCnt := ⟨1, 0⟩ } := by
  have hmin : d < (BitVec.ofNat 8 (c.loMax + 1)).toNat := by
    rw [BitVec.toNat_ofNat, Nat.mod_eq_of_lt (by omega)]; omega
  have hmax : (if 0 < d then (⟨BitVec.ofNat 8 d, 0x00#8⟩ : PerClass Byte) else ⟨0x00#8, 0x00#8⟩) =
      ⟨BitVec.ofNat 8 d, 0x00#8⟩ := by
    split
    · rfl
    · rw [show d = 0 by omega]
  unfold syncMatch fold resetStats
  simp [Params.statMinInit]
  exact ⟨fun h => absurd hmin (by simpa using h), by rintro rfl; rfl⟩

/-- The fold's effect on the statistics of the sample's own class, in numbers. -/
theorem fold_own (d : Nat) (b : Bool) (r : Regs sw cw) (hd : d < 256) :
    (((r.fold d b).statMin.get b).toNat = min (r.statMin.get b).toNat d) ∧
      (((r.fold d b).statMax.get b).toNat = max (r.statMax.get b).toNat d) ∧
      (((r.fold d b).statSum.get b).toNat = ((r.statSum.get b).toNat + d) % 2 ^ sw) ∧
      (((r.fold d b).statCnt.get b).toNat = ((r.statCnt.get b).toNat + 1) % 2 ^ cw) := by
  refine ⟨?_, ?_, ?_, ?_⟩
  · rw [fold_statMin]
    split
    · rw [PerClass.get_set_same, BitVec.toNat_ofNat]; omega
    · omega
  · rw [fold_statMax]
    split
    · rw [PerClass.get_set_same, BitVec.toNat_ofNat]; omega
    · omega
  · rw [fold_statSum, PerClass.get_set_same, BitVec.toNat_add, BitVec.toNat_ofNat]
    simp only [Nat.add_mod_mod]
  · rw [fold_statCnt, PerClass.get_set_same, BitVec.toNat_add]
    simp

/-- The fold leaves the other class alone. -/
theorem fold_other (d : Nat) (b : Bool) (r : Regs sw cw) :
    (r.fold d b).statMin.get (!b) = r.statMin.get (!b) ∧ (r.fold d b).statMax.get (!b) = r.statMax.get (!b) ∧
      (r.fold d b).statSum.get (!b) = r.statSum.get (!b) ∧ (r.fold d b).statCnt.get (!b) = r.statCnt.get (!b) := by
  refine ⟨?_, ?_, ?_, ?_⟩
  · rw [fold_statMin]; split
    · rw [PerClass.get_set_other]
    · rfl
  · rw [fold_statMax]; split
    · rw [PerClass.get_set_other]
    · rfl
  · rw [fold_statSum, PerClass.get_set_other]
  · rw [fold_statCnt, PerClass.get_set_other]

@[simp] theorem advance_history (r : Regs sw cw) : r.advance.history = r.history := by
  unfold advance; split
  · split <;> rfl
  · rfl
@[simp] theorem advance_packet (r : Regs sw cw) : r.advance.packet = r.packet := by
  unfold advance; split
  · split <;> rfl
  · rfl
@[simp] theorem advance_statMin (r : Regs sw cw) : r.advance.statMin = r.statMin := by
  unfold advance; split
  · split <;> rfl
  · rfl
@[simp] theorem advance_statMax (r : Regs sw cw) : r.advance.statMax = r.statMax := by
  unfold advance; split
  · split <;> rfl
  · rfl
@[simp] theorem advance_statSum (r : Regs sw cw) : r.advance.statSum = r.statSum := by
  unfold advance; split
  · split <;> rfl
  · rfl
@[simp] theorem advance_statCnt (r : Regs sw cw) : r.advance.statCnt = r.statCnt := by
  unfold advance; split
  · split <;> rfl
  · rfl

/-- The position goes up by one, and at the fortieth bit the frame completes (40_accept.md R113). -/
theorem advance_position (r : Regs sw cw) (h : r.byteIdx.toNat ≤ 4) :
    8 * r.advance.byteIdx.toNat + r.advance.bitIdx.toNat = 8 * r.byteIdx.toNat + r.bitIdx.toNat + 1 ∧
      (8 * r.byteIdx.toNat + r.bitIdx.toNat = 39 → r.advance.state = .idle) ∧
      (8 * r.byteIdx.toNat + r.bitIdx.toNat ≠ 39 → r.advance.state = r.state) ∧
      r.advance.acquired = (r.acquired || 8 * r.byteIdx.toNat + r.bitIdx.toNat == 39) := by
  have hb := r.bitIdx.isLt
  have hy := r.byteIdx.isLt
  have h5 : (r.byteIdx + 1 = 5) ↔ r.byteIdx.toNat = 4 := by
    rw [← BitVec.toNat_inj, BitVec.toNat_add]
    simp
    omega
  have hnext : (r.byteIdx + 1).toNat = r.byteIdx.toNat + 1 := by
    rw [BitVec.toNat_add]; simp; omega
  unfold advance
  by_cases h8 : r.bitIdx.toNat + 1 = 8
  · rw [if_pos h8]
    simp only [nextByte_byteIdx, h5]
    by_cases h4 : r.byteIdx.toNat = 4
    · rw [if_pos h4]
      refine ⟨?_, ?_, ?_, ?_⟩
      · simp only [completeFrame_byteIdx, completeFrame_bitIdx, nextByte_byteIdx, nextByte_bitIdx, hnext]; simp; omega
      · intro _; rfl
      · intro hne; omega
      · rw [show 8 * r.byteIdx.toNat + r.bitIdx.toNat = 39 by omega]; simp
    · rw [if_neg h4]
      refine ⟨?_, ?_, ?_, ?_⟩
      · simp only [nextByte_byteIdx, nextByte_bitIdx, hnext]; simp; omega
      · intro he; omega
      · intro _; rfl
      · rw [show (8 * r.byteIdx.toNat + r.bitIdx.toNat == 39) = false by simp; omega]; simp
  · rw [if_neg h8]
    have hn : (r.bitIdx + 1).toNat = r.bitIdx.toNat + 1 := by
      rw [BitVec.toNat_add]; simp; omega
    refine ⟨?_, ?_, ?_, ?_⟩
    · simp only [hn]; omega
    · intro he; omega
    · intro _; rfl
    · rw [show (8 * r.byteIdx.toNat + r.bitIdx.toNat == 39) = false by simp; omega]; simp

end Regs

/-- Everything ACCEPT can do to the registers. -/
theorem acceptRegs_cases {c : Params} {d : Nat} {r r' : Regs sw cw} (h : acceptRegs c d r = .ok r') :
    (classifyAt c d = .invalid ∧ r' = r.syncReset) ∨
      ∃ b, (classifyAt c d).bit? = some b ∧
        ((r.state = .idle ∧ r' = r.leaveIdle.search c d b) ∨ (r.state = .searching ∧ r' = r.search c d b) ∨
          (r.state = .acquiring ∧ ∃ i : Fin 5, i.val = r.byteIdx.toNat ∧ r' = ((r.storeBit i b).fold d b).advance)) := by
  unfold acceptRegs at h
  split at h
  next hn => exact .inl ⟨bit?_eq_none.mp hn, (Except.ok.inj h).symm⟩
  next b hb =>
    refine .inr ⟨b, hb, ?_⟩
    unfold Regs.acceptBit at h
    split at h
    next hs => exact .inl ⟨hs, (Except.ok.inj h).symm⟩
    next hs => exact .inr (.inl ⟨hs, (Except.ok.inj h).symm⟩)
    next hs =>
      unfold Regs.assemble at h
      split at h
      · cases h
      next i hi => exact .inr (.inr ⟨hs, i, (packetIndex_eq_some.mp hi).symm, (Except.ok.inj h).symm⟩)

theorem acceptRegs_invalid {c : Params} {d : Nat} (h : classifyAt c d = .invalid) (r : Regs sw cw) :
    acceptRegs c d r = .ok r.syncReset := by unfold acceptRegs; rw [h]; rfl

theorem acceptRegs_idle {c : Params} {d : Nat} {b : Bool} (h : (classifyAt c d).bit? = some b) {r : Regs sw cw}
    (hs : r.state = .idle) : acceptRegs c d r = .ok (r.leaveIdle.search c d b) := by
  unfold acceptRegs Regs.acceptBit; rw [h, hs]

theorem acceptRegs_searching {c : Params} {d : Nat} {b : Bool} (h : (classifyAt c d).bit? = some b) {r : Regs sw cw}
    (hs : r.state = .searching) : acceptRegs c d r = .ok (r.search c d b) := by
  unfold acceptRegs Regs.acceptBit; rw [h, hs]

theorem acceptRegs_acquiring {c : Params} {d : Nat} {b : Bool} (h : (classifyAt c d).bit? = some b) {r : Regs sw cw}
    (hs : r.state = .acquiring) {i : Fin 5} (hi : i.val = r.byteIdx.toNat) :
    acceptRegs c d r = .ok ((r.storeBit i b).fold d b).advance := by
  unfold acceptRegs Regs.acceptBit Regs.assemble
  rw [h, hs, packetIndex_eq_some.mpr hi.symm]

theorem acceptRegs_outside {c : Params} {d : Nat} {b : Bool} (h : (classifyAt c d).bit? = some b) {r : Regs sw cw}
    (hs : r.state = .acquiring) (hi : 5 ≤ r.byteIdx.toNat) : acceptRegs c d r = .error .packetIndexOutOfRange := by
  unfold acceptRegs Regs.acceptBit Regs.assemble
  rw [h, hs, packetIndex_eq_none.mpr hi]

end Machine

end Sys2Proof
end

