-- ==== Sys2Proof/Laws/Decode.lean ====
section
/-! SUPPORT. The decoder's fields as quotients and remainders, the number of an ACCEPT's word, and what the decoder answers in
each case of 30_encoding.md R84. -/

namespace Sys2Proof

theorem opcField_eq (w : OpWord) : opcField w = w.toNat / 4096 := by
  have := w.isLt
  unfold opcField slice
  omega

theorem lowField_eq (w : OpWord) : lowField w = w.toNat % 4096 := by
  unfold lowField slice
  omega

theorem durField_eq {dw : Nat} (h : 1 ≤ dw) (w : OpWord) : durField dw w = w.toNat % 2 ^ dw := by
  unfold durField slice
  rw [show dw - 1 + 1 - 0 = dw by omega]
  simp

theorem rsvField_eq {dw : Nat} (h : dw ≤ 12) (w : OpWord) : rsvField dw w = w.toNat % 4096 / 2 ^ dw := by
  unfold rsvField slice
  have h2 : (4096 : Nat) = 2 ^ dw * 2 ^ (11 + 1 - dw) := by
    rw [← pow_add, show dw + (11 + 1 - dw) = 12 by omega]; rfl
  rw [h2, Nat.mod_mul_right_div_self]

theorem encode_accept_toNat {d : Nat} (h : d < 4096) : (encode (.accept d)).toNat = 4096 + d := by
  have h2 : 4096 ||| d = 4096 + d := (Nat.two_pow_add_eq_or_of_lt (i := 12) h 1).symm
  simp only [encode, BitVec.toNat_or, BitVec.toNat_ofNat]
  rw [Nat.mod_eq_of_lt (by omega : d < 2 ^ 16)]
  exact h2

theorem plainOperation_reserved {n : Nat} (h : 12 ≤ n) : plainOperation n = none := by
  unfold plainOperation
  split <;> first | rfl | omega

theorem plainOperation_accept : plainOperation 1 = none := rfl

/-- The code of an operation without an operand is the top of its word, the rest of which is zero. -/
theorem plainOperation_encode {n : Nat} {i : Instr} (h : plainOperation n = some i) :
    (encode i).toNat = 4096 * n ∧ n < 12 := by
  unfold plainOperation at h
  split at h <;> cases h <;> decide

/-- An illegal word decodes to the reserved instruction that keeps it. -/
theorem decodeAt_illegal {dw : Nat} (h2 : dw ≤ 12) {w : OpWord} (h : illegalWordAt dw w = true) :
    decodeAt dw w = .reserved w := by
  unfold illegalWordAt at h
  simp only [Bool.or_eq_true, decide_eq_true_eq, Bool.and_eq_true, beq_iff_eq, bne_iff_ne] at h
  unfold decodeAt decodeLegalAt
  rw [opcField_eq, lowField_eq, rsvField_eq h2]
  have hw := w.isLt
  by_cases hc : w.toNat / 4096 = 1
  · have : w.toNat % 4096 / 2 ^ dw ≠ 0 := by omega
    simp [hc, this]
  · rcases h with (h | h) | h
    · simp [hc, plainOperation_reserved h]
    · omega
    · rw [if_neg hc]
      cases hp : plainOperation (w.toNat / 4096) <;> simp [h.2]

end Sys2Proof
end

