-- ==== Sys2Proof/Laws/Exec.lean ====
section
/-! SUPPORT. What `execAt`, `exec`, `runOps`, `stepAt` and `step` can answer, said once. -/

namespace Sys2Proof.Machine

/-- `exec` is the block of all parameters at the configured ones. -/
theorem exec_eq_execAt (i : Instr) (s : State) : exec i s = execAt Config.current i s := by cases i <;> rfl

/-- `step` is the clock cycle of the block of all parameters at the configured ones. -/
theorem step_eq_stepAt (s : State) : step s = stepAt Config.current s := by
  unfold step stepAt
  simp only [exec_eq_execAt]
  rfl

variable {c : Params} {sw cw : Nat}

/-- A mean has at most the bits of its sum, so with SUMW of at most 16 it fits in its field of the result. -/
theorem mean?_lt {r : Regs sw cw} {b : Bool} {m : Nat} (h : r.mean? b = some m) : m < 2 ^ sw := by
  unfold Regs.mean? at h
  split at h
  · cases h
  · cases h
    exact lt_of_le_of_lt (Nat.div_le_self _ _) (r.statSum.get b).isLt

theorem meanField_of_lt {m : Nat} (h : m < 2 ^ 16) : meanField m = BitVec.ofNat 16 m := if_pos h

/-- The registers after an operation other than ACCEPT. -/
def queryRegs (c : Params) : Instr → Regs sw cw → Regs sw cw
  | .acq, r => r.clearAcquired
  | .stmean, r => if c.meanMutates then (r.storeMean false).storeMean true else r
  | .nop, r => r
  | .accept _, r => r
  | .pkt, r => r
  | .valid, r => r
  | .id, r => r
  | .hum, r => r
  | .temp, r => r
  | .temptxt, r => r
  | .stmin, r => r
  | .stmax, r => r
  | .reserved _, r => r

/-- An operation without a duration always answers, and writes at most the flag or the sums. -/
theorem execAt_query {i : Instr} (h : i.duration? = none) (s : State.At c) :
    ∃ d st, execAt c i s = .next (s.respond (queryRegs c i s.regs) d st) := by
  cases i <;> first | exact ⟨_, _, rfl⟩ | cases h

theorem execAt_accept_ok {d : Nat} {s : State.At c} {r : Regs.At c} (h : acceptRegs c d s.regs = .ok r) :
    execAt c (.accept d) s = .next (s.respond r 0 .ok) := by
  simp only [execAt, execAcceptAt, h, answer]

theorem execAt_accept_cases {d : Nat} {s t : State.At c} (h : execAt c (.accept d) s = .next t) :
    ∃ r, acceptRegs c d s.regs = .ok r ∧ t = s.respond r 0 .ok := by
  simp only [execAt, execAcceptAt, answer] at h
  split at h
  next r hr => exact ⟨r, hr, (Host.Outcome.next.inj h).symm⟩
  · cases h

/-- Everything an operation can do: it answers with new registers and leaves the port's input and the free values alone. -/
theorem execAt_cases {i : Instr} {s t : State.At c} (h : execAt c i s = .next t) :
    ∃ r d st, t = s.respond r d st ∧
      ((i.duration? = none ∧ r = queryRegs c i s.regs) ∨ ∃ e, i = .accept e ∧ acceptRegs c e s.regs = .ok r) := by
  cases hi : i.duration? with
  | none =>
    obtain ⟨d, st, he⟩ := execAt_query hi s
    exact ⟨_, d, st, Host.Outcome.next.inj (h.symm.trans he), .inl ⟨rfl, rfl⟩⟩
  | some e =>
    have hie : i = .accept e := by cases i <;> simp_all [Instr.duration?]
    subst hie
    obtain ⟨r, hr, ht⟩ := execAt_accept_cases h
    exact ⟨r, 0, .ok, ht, .inr ⟨e, rfl, hr⟩⟩

/-! The same of the configured machine. -/

theorem exec_query {i : Instr} (h : i.duration? = none) (s : State) :
    ∃ d st, exec i s = .next (s.respond (queryRegs Config.current i s.regs) d st) := by
  rw [exec_eq_execAt]
  exact execAt_query (c := Config.current) h s

theorem exec_accept_ok {d : Nat} {s : State} {r : Regs 16 8} (h : acceptRegs Config.current d s.regs = .ok r) :
    exec (.accept d) s = .next (s.respond r 0 .ok) := by
  rw [exec_eq_execAt]
  exact execAt_accept_ok (c := Config.current) h

theorem exec_accept_cases {d : Nat} {s t : State} (h : exec (.accept d) s = .next t) :
    ∃ r, acceptRegs Config.current d s.regs = .ok r ∧ t = s.respond r 0 .ok := by
  rw [exec_eq_execAt] at h
  exact execAt_accept_cases (c := Config.current) h

theorem exec_cases {i : Instr} {s t : State} (h : exec i s = .next t) :
    ∃ r d st, t = s.respond r d st ∧
      ((i.duration? = none ∧ r = queryRegs Config.current i s.regs) ∨
        ∃ e, i = .accept e ∧ acceptRegs Config.current e s.regs = .ok r) := by
  rw [exec_eq_execAt] at h
  exact execAt_cases (c := Config.current) h

theorem queryRegs_eq_self {i : Instr} (h1 : i ≠ .acq) (h2 : i ≠ .stmean) (r : Regs sw cw) : queryRegs c i r = r := by
  cases i <;> first | rfl | exact absurd rfl h1 | exact absurd rfl h2

/-- No operation but ACCEPT touches a register of the acquisition. -/
theorem queryRegs_acquisition (c : Params) (i : Instr) (r : Regs sw cw) : (queryRegs c i r).SameAcquisition r := by
  unfold Regs.SameAcquisition
  cases i <;> simp [queryRegs]
  split <;> simp

theorem runOps_cons {i : Instr} {is : List Instr} {s t : State} (h : exec i s = .next t) :
    runOps (i :: is) s = runOps is t := by simp only [runOps, h]

theorem runOps_append (a b : List Instr) (s : State) {t : State} (h : runOps a s = .next t) :
    runOps (a ++ b) s = runOps b t := by
  induction a generalizing s with
  | nil => cases h; rfl
  | cons i is ih =>
    simp only [runOps, List.cons_append] at h ⊢
    split at h
    next u hu => simp only [ih u h]
    · cases h
    · cases h

/-- A clock cycle is a reset cycle or one operation at the state with its cycle taken off. -/
theorem stepAt_cases {s t : State.At c} (h : stepAt c s = .next t) :
    (s.nextCycle.1.rst = true ∧ t = s.nextCycle.2.takeReset) ∨
      ∃ i, s.nextCycle.1.operationAt? c.dw = some i ∧ execAt c i s.nextCycle.2 = .next t := by
  unfold stepAt at h
  split at h
  next hn =>
    refine .inl ⟨?_, (Host.Outcome.next.inj h).symm⟩
    unfold Cycle.operationAt? at hn
    split at hn
    next hr => exact hr
    · split at hn <;> cases hn
  next i hi => exact .inr ⟨i, hi, h⟩

theorem step_cases {s t : State} (h : step s = .next t) :
    (s.nextCycle.1.rst = true ∧ t = s.nextCycle.2.takeReset) ∨
      ∃ i, s.nextCycle.1.operation? = some i ∧ exec i s.nextCycle.2 = .next t := by
  rw [step_eq_stepAt] at h
  simp only [exec_eq_execAt]
  exact stepAt_cases (c := Config.current) h

@[simp] theorem nextCycle_regs (s : State.Of sw cw) : s.nextCycle.2.regs = s.regs := by
  unfold State.Of.nextCycle; split <;> rfl

end Sys2Proof.Machine
end

