-- ==== Sys2Proof/Laws/PerInstr.lean ====
section
/-! SUPPORT. Statements over every instruction as syntax, one lemma per constructor. -/

namespace Sys2Proof.Laws.EncodeMatchesRow

/-- The word of a well-formed operation of the table selects a row of the operation map that carries its mnemonic
(30_encoding.md R82); a reserved instruction's word is its own. -/
def Statement (i : Instr) : Prop :=
  i.WellFormed → (∃ r ∈ opRows Config.current.dw, r.mnemonic = i.mnemonic ∧ r.Selects (encode i)) ∨ i = .reserved (encode i)

theorem nop : Statement .nop := fun _ => .inl (by decide)
theorem acq : Statement .acq := fun _ => .inl (by decide)
theorem pkt : Statement .pkt := fun _ => .inl (by decide)
theorem valid : Statement .valid := fun _ => .inl (by decide)
theorem id : Statement .id := fun _ => .inl (by decide)
theorem hum : Statement .hum := fun _ => .inl (by decide)
theorem temp : Statement .temp := fun _ => .inl (by decide)
theorem temptxt : Statement .temptxt := fun _ => .inl (by decide)
theorem stmin : Statement .stmin := fun _ => .inl (by decide)
theorem stmax : Statement .stmax := fun _ => .inl (by decide)
theorem stmean : Statement .stmean := fun _ => .inl (by decide)
theorem reserved (w : OpWord) : Statement (.reserved w) := fun _ => .inr rfl

/-- A byte has no bit in ACCEPT's reserved field. -/
theorem byte_and_reserved {d : Nat} (h : d < 256) : BitVec.ofNat 16 d &&& 0xFF00#16 = 0#16 := by
  apply BitVec.eq_of_getLsbD_eq
  intro i hi
  rw [BitVec.getLsbD_and, BitVec.getLsbD_ofNat]
  by_cases h8 : 8 ≤ i
  · have : d.testBit i = false := Nat.testBit_lt_two_pow (lt_of_lt_of_le h (Nat.pow_le_pow_right (by omega) h8 : 2 ^ 8 ≤ 2 ^ i))
    simp [this]
  · have : (0xFF00#16).getLsbD i = false := by
      have all : ∀ j : Fin 8, (0xFF00#16).getLsbD j.val = false := by decide
      exact all ⟨i, by omega⟩
    simp [this]

/-- The reserved bits of the word are 0x1 in front of zeros, whatever the duration. -/
theorem accept (d : Nat) : Statement (.accept d) := by
  intro h
  have hd : d < 256 := of_decide_eq_true (p := d < 2 ^ 8) h
  refine .inl ⟨⟨"ACCEPT", 0x1000#16, acceptMask 8⟩, by simp [opRows], rfl, ?_⟩
  change (0x1000#16 ||| BitVec.ofNat 16 d) &&& 0xFF00#16 = 0x1000#16
  rw [BitVec.and_or_distrib_right, byte_and_reserved hd]
  rfl

end Sys2Proof.Laws.EncodeMatchesRow
end

