-- ==== Sys2Proof/Laws/Run.lean ====
section
/-! SUPPORT. Runs of the host's `Core.run` one step at a time, stated with the model's own `step`. -/

namespace Sys2Proof.Machine

theorem run_next {n : Nat} {s t : State} (h : step s = .next t) :
    Host.Core.run Sys2Proof.core (n + 1) s = Host.Core.run Sys2Proof.core n t := by
  have h' : Sys2Proof.core.step s = _ := h
  simp only [Host.Core.run, h']

theorem run_fault {n : Nat} {s : State} {f : Fault} (h : step s = .fault f) :
    Host.Core.run Sys2Proof.core (n + 1) s = .fault f := by
  have h' : Sys2Proof.core.step s = _ := h
  simp only [Host.Core.run, h']

theorem run_refused {n : Nat} {s : State} {f : Refusal} (h : step s = .refused f) :
    Host.Core.run Sys2Proof.core (n + 1) s = .refused f := by
  have h' : Sys2Proof.core.step s = _ := h
  simp only [Host.Core.run, h']

end Sys2Proof.Machine
end

