-- ==== Sys2Proof/Tests/Slice0.lean ====
section
/-! SUPPORT. Tests: ill-formed terms, words written out from the spec's encoding, one step at a time with values of
95_test_vectors.md, and for every statement with hypotheses a concrete state and operands that meet them. -/

namespace Sys2Proof.Tests

open Sys2Proof Sys2Proof.Machine

/-! Builders of small states. -/

/-- The state after reset with other registers. -/
def withRegs (r : Regs 16 8) : State := { State.reset with regs := r }

/-- The state after reset with a packet. -/
def withPacket (b0 b1 b2 b3 b4 : Byte) : State := withRegs { State.reset.regs with packet := ⟨b0, b1, b2, b3, b4⟩ }

/-- The state after reset with statistics, each array written class 0 first. -/
def withStats (mn mx : PerClass Byte) (sm : PerClass (BitVec 16)) (ct : PerClass (BitVec 8)) : State :=
  withRegs { State.reset.regs with statMin := mn, statMax := mx, statSum := sm, statCnt := ct }

/-- SEARCHING, as after a HIGH sample. -/
def searching : State := withRegs { State.reset.regs with state := .searching, history := 0xFF#8 }

/-- Right after the sync match of `ACCEPT 60` (95_test_vectors.md V-SYNC-1). -/
def synced : State :=
  withRegs
    { State.reset.regs with
      state := .acquiring, history := 0xFE#8, bitIdx := 1#3, statMin := ⟨60#8, 69#8⟩, statMax := ⟨60#8, 0#8⟩
      statSum := ⟨60#16, 0#16⟩, statCnt := ⟨1#8, 0#8⟩ }

/-- P1 of 95_test_vectors.md after operation 46: one bit is missing. -/
def lastBit : State :=
  withRegs
    { state := .acquiring, acquired := false, history := 0xFE#8, packet := ⟨0x2D#8, 0x31#8, 0x0A#8, 0x48#8, 0x04#8⟩
      byteIdx := 4#3, bitIdx := 7#3, statMin := ⟨60#8, 20#8⟩, statMax := ⟨60#8, 20#8⟩, statSum := ⟨1620#16, 240#16⟩
      statCnt := ⟨27#8, 12#8⟩ }

/-- P1 of 95_test_vectors.md after operation 47: the frame is complete and unread. -/
def complete : State :=
  withRegs
    { state := .idle, acquired := true, history := 0xFE#8, packet := ⟨0x2D#8, 0x31#8, 0x0A#8, 0x48#8, 0x08#8⟩
      byteIdx := 5#3, bitIdx := 0#3, statMin := ⟨60#8, 20#8⟩, statMax := ⟨60#8, 20#8⟩, statSum := ⟨1680#16, 240#16⟩
      statCnt := ⟨28#8, 12#8⟩ }

/-- The registers after an outcome. -/
def regsOf : Host.Outcome State Fault Refusal → Option (Regs 16 8)
  | .next t => some t.regs
  | .fault _ => none
  | .refused _ => none

/-- `r_data` and `r_status` after an outcome. -/
def answerOf : Host.Outcome State Fault Refusal → Option (Nat × Nat)
  | .next t => some (t.rData.toNat, t.rStatus.toNat)
  | .fault _ => none
  | .refused _ => none

/-! Well-formedness: each check refuses a term (30_encoding.md R83, R84). -/

theorem test_wellFormed_refuses_wide_duration : ¬(Instr.accept 256).WellFormed ∧ (Instr.accept 255).WellFormed := by decide
theorem test_wellFormed_refuses_legal_reserved :
    ¬(Instr.reserved 0x2000#16).WellFormed ∧ ¬(Instr.reserved 0x1044#16).WellFormed ∧
      (Instr.reserved 0x2001#16).WellFormed := by decide

/-! Decoding: words written out bit by bit from 30_encoding.md R81, R82 (opc, op[11:8], op[7:0]). -/

theorem test_decode_nop : decode 0b0000_0000_00000000#16 = .nop := by decide
theorem test_decode_accept :
    decode 0b0001_0000_00000000#16 = .accept 0 ∧ decode 0b0001_0000_00111100#16 = .accept 60 ∧
      decode 0b0001_0000_11111111#16 = .accept 255 := by decide
theorem test_decode_handoff : decode 0b0010_0000_00000000#16 = .acq ∧ decode 0b0011_0000_00000000#16 = .pkt := by decide
theorem test_decode_valid : decode 0b0100_0000_00000000#16 = .valid := by decide
theorem test_decode_fields :
    decode 0b0101_0000_00000000#16 = .id ∧ decode 0b0110_0000_00000000#16 = .hum ∧
      decode 0b0111_0000_00000000#16 = .temp ∧ decode 0b1000_0000_00000000#16 = .temptxt := by decide
theorem test_decode_stats :
    decode 0b1001_0000_00000000#16 = .stmin ∧ decode 0b1010_0000_00000000#16 = .stmax ∧
      decode 0b1011_0000_00000000#16 = .stmean := by decide
/-- 95_test_vectors.md V-SYS-3 to V-SYS-5. -/
theorem test_decode_illegal :
    ([0xC000#16, 0xD000#16, 0xE000#16, 0xF000#16, 0xFFFF#16, 0x2001#16, 0x3001#16] ++
      [0x4800#16, 0xB00F#16, 0x0001#16, 0x1100#16, 0x1F14#16, 0x1814#16]).all
        (fun w => decode w == .reserved w) = true := by decide
/-- The names of the three cases of 30_encoding.md R84. -/
theorem test_decode_rejects_by_name :
    decodeLegalAt 8 0xC000#16 = .error .reservedCode ∧ decodeLegalAt 8 0x1100#16 = .error .reservedBits ∧
      decodeLegalAt 8 0x2001#16 = .error .operandBits := ⟨rfl, rfl, rfl⟩
/-- A wider operand takes bits of the reserved field (30_encoding.md R81 with DW = 12). -/
theorem test_decode_wide : decodeAt 12 0x1100#16 = .accept 256 ∧ decodeAt 7 0x1080#16 = .reserved 0x1080#16 := by decide
theorem test_decodeTableWord :
    decodeTableWord 16 0x1014 = some (.accept 20) ∧ decodeTableWord 16 0xC000 = some (.reserved 0xC000#16) ∧
      decodeTableWord 24 0x1014 = none := by decide

/-! Reset (10_state.md R31; 95_test_vectors.md V-SYS-6). -/

theorem test_reset_state :
    State.reset.regs.state = .idle ∧ State.reset.regs.acquired = false ∧ State.reset.regs.statCnt = ⟨0#8, 0#8⟩ := by decide
theorem test_reset_wins_over_accept :
    ∃ r, regsOf (step { lastBit with inputs := [⟨true, true, 0x103C#16⟩] }) = some r ∧ r.state = .idle ∧
      r.acquired = false ∧ r.statCnt = ⟨0#8, 0#8⟩ := ⟨_, rfl, rfl, rfl, rfl⟩

/-! The step and `withFetchWord`. -/

theorem test_step_runs_first_word :
    regsOf (step (State.reset.withFetchWord 16 0x103C)) = regsOf (exec (.accept 60) State.reset) := by decide
/-- 95_test_vectors.md V-SYS-2. -/
theorem test_step_ignores_op_when_not_valid :
    regsOf (step { complete with inputs := [⟨false, false, 0xB000#16⟩] }) = some complete.regs := by decide

/-! NOP and reserved words (45_system.md; 95_test_vectors.md V-SYS). -/

theorem test_nop : regsOf (exec .nop complete) = some complete.regs ∧ answerOf (exec .nop complete) = some (0, 0) := by decide
theorem test_reserved :
    regsOf (exec (.reserved 0x2001#16) complete) = some complete.regs ∧
      answerOf (exec (.reserved 0x2001#16) complete) = some (0, 1) := by decide

/-! ACCEPT (40_accept.md; 95_test_vectors.md V-CLS, V-SYNC, V-ASM). -/

theorem test_classify_bounds :
    [0, 12, 13, 27, 28, 51, 52, 68, 69, 255].map classify =
      [.invalid, .invalid, .high, .high, .invalid, .invalid, .low, .low, .invalid, .invalid] := by decide
theorem test_accept_syncs : regsOf (exec (.accept 60) State.reset) = some synced.regs := by decide
/-- The example of 40_accept.md R113. -/
theorem test_accept_completes : regsOf (exec (.accept 60) lastBit) = some complete.regs := by decide

/-! Other parameters (00_scope.md R6, R7): sums of 20 bits, counts of 6, and the widest thresholds. -/

def wide : Params := { hiMin := 0, hiMax := 0, loMin := 1, loMax := 254, dw := 12, sumw := 20, cntw := 6 }

/-- One operation of the block with those parameters, at registers of its widths. -/
def wideRun (i : Instr) (r : Regs 20 6) : Host.Outcome (State.Of 20 6) Fault Refusal :=
  execAt wide i ⟨r, [], 0#40, 0#2, 0⟩

theorem test_wide_accept_syncs :
    (match wideRun (.accept 254) ⟨.idle, false, 0x00#8, Packet.zero, 0, 0, ⟨0, 0⟩, ⟨0, 0⟩, ⟨0, 0⟩, ⟨0, 0⟩⟩ with
      | .next t => decide (t.regs = ⟨.acquiring, false, 0xFE#8, Packet.zero, 0, 1, ⟨254, 255⟩, ⟨254, 0⟩, ⟨254, 0⟩, ⟨1, 0⟩⟩)
      | .fault _ => false
      | .refused _ => false) = true := by decide

/-! ACQ and PKT (41_handoff.md; 95_test_vectors.md P1). -/

theorem test_acq :
    answerOf (exec .acq complete) = some (1, 0) ∧
      (regsOf (exec .acq complete)).map Regs.acquired = some false := by decide
theorem test_pkt : answerOf (exec .pkt complete) = some (0x2D310A4808, 0) := by decide

/-! Statistics (95_test_vectors.md V-STAT-2, 8, 1, 7, 11). -/

theorem test_stmin : answerOf (exec .stmin complete) = some (0x143C, 0) := by decide
theorem test_stmin_unseen :
    answerOf (exec .stmin (withStats ⟨60#8, 69#8⟩ ⟨60#8, 0#8⟩ ⟨2400#16, 0#16⟩ ⟨40#8, 0#8⟩)) = some (0x453C, 0) := by decide
theorem test_stmax :
    answerOf (exec .stmax (withStats ⟨52#8, 13#8⟩ ⟨68#8, 24#8⟩ ⟨1647#16, 222#16⟩ ⟨28#8, 12#8⟩)) = some (0x1844, 0) := by
  decide
theorem test_stmean :
    let s := withStats ⟨52#8, 13#8⟩ ⟨68#8, 24#8⟩ ⟨1647#16, 222#16⟩ ⟨28#8, 12#8⟩
    answerOf (exec .stmean s) = some (0x000012003A, 0) ∧
      (regsOf (exec .stmean s)).map Regs.statSum = some ⟨58#16, 18#16⟩ := by decide
theorem test_stmean_div0 :
    let s := withStats ⟨60#8, 69#8⟩ ⟨60#8, 0#8⟩ ⟨2400#16, 0#16⟩ ⟨40#8, 0#8⟩
    answerOf (exec .stmean State.reset) = some (0x0300000000, 2) ∧
      answerOf (exec .stmean s) = some (0x020000003C, 2) ∧
      (regsOf (exec .stmean s)).map Regs.statSum = some ⟨60#16, 0#16⟩ := by decide

/-! Checksum (95_test_vectors.md V-CRC-2, V-CRC-5). -/

set_option maxRecDepth 4000 in
theorem test_crc8 :
    crc8 0x2D#8 0x31#8 0x0A#8 0x48#8 = 0x08#8 ∧ crc8 0x12#8 0x34#8 0x56#8 0x78#8 = 0x37#8 ∧
      crc8 0xFF#8 0xFF#8 0xFF#8 0xFF#8 = 0xB1#8 ∧ crc8From 0xFF#8 0x2D#8 0x31#8 0x0A#8 0x48#8 = 0xDF#8 := by decide
set_option maxRecDepth 4000 in
theorem test_valid :
    answerOf (exec .valid complete) = some (1, 0) ∧
      answerOf (exec .valid (withPacket 0x2D#8 0x31#8 0x0A#8 0x48#8 0x09#8)) = some (0, 0) := by decide

/-! Fields (95_test_vectors.md V-FLD). -/

theorem test_id :
    answerOf (exec .id complete) = some (0x2D3, 0) ∧
      answerOf (exec .id (withPacket 0xFF#8 0xFF#8 0xFF#8 0xFF#8 0xB1#8)) = some (0xFFF, 0) := by decide
theorem test_hum : answerOf (exec .hum complete) = some (72, 0) := by decide
theorem test_temp :
    answerOf (exec .temp (withPacket 0x2D#8 0x39#8 0x0A#8 0x48#8 0x5A#8)) = some (0xFEF6, 0) ∧
      answerOf (exec .temp (withPacket 0x7F#8 0xF7#8 0xFF#8 0xFF#8 0x12#8)) = some (0x07FF, 0) := by decide
theorem test_temptxt :
    answerOf (exec .temptxt (withPacket 0x2D#8 0x39#8 0x0A#8 0x48#8 0x5A#8)) = some (0x11A6, 0) ∧
      answerOf (exec .temptxt (withPacket 0x00#8 0x08#8 0x00#8 0x00#8 0x52#8)) = some (0x1000, 0) := by decide
/-- The texts "-26.6" and "0.5". -/
theorem test_render :
    render true 26 6 = [0x2D#8, 0x32#8, 0x36#8, 0x2E#8, 0x36#8] ∧ render false 0 5 = [0x30#8, 0x2E#8, 0x35#8] := by decide
/-- The texts "9.0", "-10.9", "-99.0", "100.0" and "-204.7", where the number of digits changes (44_fields.md R164). -/
theorem test_render_digits :
    render false 9 0 = [0x39#8, 0x2E#8, 0x30#8] ∧ render true 10 9 = [0x2D#8, 0x31#8, 0x30#8, 0x2E#8, 0x39#8] ∧
      render true 99 0 = [0x2D#8, 0x39#8, 0x39#8, 0x2E#8, 0x30#8] ∧
      render false 100 0 = [0x31#8, 0x30#8, 0x30#8, 0x2E#8, 0x30#8] ∧
      render true 204 7 = [0x2D#8, 0x32#8, 0x30#8, 0x34#8, 0x2E#8, 0x37#8] := by decide

/-! Assembler notation (30_encoding.md R88, R89). -/

theorem test_assemble_accept :
    assembleLine "ACCEPT 0x3C ; sync".toList = some [Cycle.present 0x103C#16] ∧
      assembleLine "ACCEPT 256".toList = none ∧ assembleLine "RESET".toList = some [Cycle.reset] ∧
      assembleLine ".word 0x2001".toList = some [Cycle.present 0x2001#16] := by decide
theorem test_assemble_byte :
    assembleLine "BYTE 0x2D".toList =
      some ([0x103C#16, 0x103C#16, 0x1014#16, 0x103C#16, 0x1014#16, 0x1014#16, 0x103C#16, 0x1014#16].map Cycle.present) := by
  decide
/-- The rule's own grammar of a number is read as log 20 says: without `0x` it is decimal. -/
theorem test_assemble_bare_number_is_decimal :
    assembleLine "BYTE 40".toList = assembleLine "BYTE 0x28".toList ∧ assembleLine "BYTE 2D".toList = none := by decide
theorem test_assemble_wide : assembleLineAt 12 "ACCEPT 256".toList = some [Cycle.present 0x1100#16] := by decide
theorem test_assemble_frame_needs_zero : (AsmLine.frame 0x80#8 0#8 0#8 0#8 0#8).cycles = none := by decide

/-! Witnesses: the hypotheses of the statements can be met. First the invariant and reachability. -/

theorem wide_admissible : wide.Admissible := by decide

theorem synced_inv : synced.Inv := by constructor <;> decide
theorem lastBit_inv : lastBit.Inv := by constructor <;> decide
theorem complete_inv : complete.Inv := by constructor <;> decide
theorem searching_inv : searching.Inv := by constructor <;> decide
theorem default_admissible : Config.current.Admissible := by decide

/-- A state that presents one sample after reset, with every open value at the default of its type. -/
def offered (d : Nat) : State := State.Of.resetWith default { State.reset with inputs := [Cycle.present (encode (.accept d))] }

theorem reachable_acquiring : ∃ t, Reachable Config.current t ∧ t.regs.state = .acquiring ∧ 1 ≤ t.regs.statCnt.class0.toNat :=
  ⟨_, .afterStep (s := offered 60) (.afterReset default _) rfl, by decide, by decide⟩
theorem reachable_searching : ∃ t, Reachable Config.current t ∧ t.regs.state = .searching :=
  ⟨_, .afterStep (s := offered 20) (.afterReset default _) rfl, by decide⟩

/-- A frame: one LOW sample and then HIGH samples of both boundary durations and LOW ones. -/
def sampleFrame : List Nat := 52 :: (List.replicate 13 13 ++ List.replicate 13 27 ++ List.replicate 13 68)

theorem sampleFrame_isFrame : IsFrame sampleFrame := ⟨rfl, by decide, rfl⟩

/-- The synced registers with sums of 12 bits and counts of 6. -/
def narrowSynced : State.Of 12 6 :=
  ⟨{ state := .acquiring, acquired := false, history := 0xFE#8, packet := Packet.zero, byteIdx := 0#3, bitIdx := 1#3
     statMin := ⟨60#8, 69#8⟩, statMax := ⟨60#8, 0#8⟩, statSum := ⟨60#12, 0#12⟩, statCnt := ⟨1#6, 0#6⟩ }, [], 0#40, 0#2, 0⟩

theorem witness_WidthsDoNotMatter :
    Config.current.Admissible ∧ Params.Admissible { Config.current with sumw := 12, cntw := 6 } ∧
      RegsInv Config.current synced.regs ∧ synced.regs.SameValues narrowSynced.regs :=
  ⟨by decide, by decide, synced_inv, by unfold Regs.SameValues; decide⟩
theorem witness_DecodeOfEncode :
    (Instr.accept 127).wellFormedAt 7 = true ∧ (Instr.accept 4095).wellFormedAt 12 = true ∧
      (Instr.reserved 0xFFFF#16).wellFormedAt 8 = true ∧ (Instr.reserved 0x1080#16).wellFormedAt 7 = true := by decide
theorem witness_WordsSelectRows :
    reservedRow.Selects 0xC000#16 ∧ reservedRow.Selects 0xFFFF#16 ∧
      (⟨"NOP", 0x0000#16, 0xFFFF#16⟩ : OpRow) ∈ opRows 7 := by decide
theorem witness_IllegalWordsHaveNoEffect :
    (∀ r ∈ opRows 8, ¬r.Selects 0xC000#16) ∧ (∀ r ∈ opRows 8, ¬r.Selects 0x1100#16) ∧
      (∀ r ∈ opRows 8, ¬r.Selects 0x0001#16) := by decide
theorem witness_StepRunsPresentedOperation :
    ({ State.reset with inputs := [⟨false, true, 0x2000#16⟩] } : State).inputs = ⟨false, true, 0x2000#16⟩ :: [] ∧
      State.reset.inputs = [] ∧ decodeTableWord 16 0x2000 = some .acq := by decide
theorem witness_PresentedOperationsRunInOrder :
    ∀ i ∈ [Instr.accept 0, .accept 255, .reserved 0x2001#16, .stmean], i.WellFormed := by decide
theorem witness_ResetCycleWins :
    ({ complete with inputs := [⟨true, true, 0x103C#16⟩] } : State).inputs = ⟨true, true, 0x103C#16⟩ :: [] ∧
      (⟨true, true, 0x103C#16⟩ : Cycle).rst = true := by decide
theorem witness_OnlyAcceptOrResetMovesTheSynchronizer :
    (∃ t, step (State.reset.withFetchWord 16 0x103C) = .next t ∧ t.regs.state ≠ State.reset.regs.state) ∧
      (∃ t, step (complete.withFetchWord 16 0x2000) = .next t ∧ complete.regs.acquired = true ∧
        t.regs.acquired = false) ∧
      (∃ t, step (lastBit.withFetchWord 16 0x103C) = .next t ∧ lastBit.regs.acquired = false ∧
        t.regs.acquired = true) :=
  ⟨⟨_, rfl, by decide⟩, ⟨_, rfl, by decide, by decide⟩, ⟨_, rfl, by decide, by decide⟩⟩
/-- The fault is there, in a state that no run reaches. -/
theorem witness_OperationsStopOnlyOutsideThePacket :
    exec (.accept 60) (withRegs { State.reset.regs with state := .acquiring, byteIdx := 5#3 }) =
      .fault .packetIndexOutOfRange := rfl
theorem witness_NopDoesNothing :
    ({ complete with inputs := [⟨false, false, 0xB000#16⟩] } : State).inputs = ⟨false, false, 0xB000#16⟩ :: [] := by decide
theorem witness_AcqAnswersOncePerCompletion :
    completesFrame (.accept 60) lastBit.regs = true ∧ (∃ t, exec (.accept 60) lastBit = .next t) ∧
      noCompletion [.acq, .accept 60, .acq] complete = true ∧ (∃ t, runOps [.acq, .accept 60, .acq] complete = .next t) ∧
      [Instr.acq, .accept 60, .acq].count .acq = 1 + 1 :=
  ⟨by decide, ⟨_, rfl⟩, by decide, ⟨_, rfl⟩, by decide⟩
theorem witness_unseen_class :
    synced.Inv ∧ 1 ≤ synced.regs.statCnt.class0.toNat ∧ synced.regs.statCnt.class1 = 0 ∧
      (∃ t, exec .stmin synced = .next t) ∧ ∃ t, exec .stmax synced = .next t :=
  ⟨synced_inv, by decide, by decide, ⟨_, rfl⟩, ⟨_, rfl⟩⟩
theorem witness_SecondStmeanDividesAgain :
    (∃ t u, exec .stmean complete = .next t ∧ exec .stmean t = .next u) ∧ complete.regs.statCnt.get false ≠ 0 ∧
      complete.regs.statCnt.get true ≠ 0 ∧ synced.regs.statCnt.get false = 1 :=
  ⟨⟨_, _, rfl, rfl⟩, by decide, by decide, by decide⟩
theorem witness_PureStmeanWritesNothing : ({ meanMutates := false } : Params).meanMutates = false := rfl
theorem witness_FirstMeanLiesInRange :
    complete.Inv ∧ complete.regs.SumsUntouched ∧ 1 ≤ (complete.regs.statCnt.get false).toNat ∧
      1 ≤ (complete.regs.statCnt.get true).toNat ∧ lastBit.Inv ∧ lastBit.regs.SumsUntouched ∧ Instr.accept 60 ≠ .stmean ∧
      ∃ t, exec (.accept 60) lastBit = .next t := by
  refine ⟨complete_inv, ?_, by decide, by decide, lastBit_inv, ?_, by decide, _, rfl⟩ <;> (unfold Regs.SumsUntouched; decide)
set_option maxRecDepth 4000 in
theorem witness_CrcDetectsSingleBitErrors :
    let p := (withPacket 0x2D#8 0x31#8 0x0A#8 0x48#8 0x88#8).regs.packet
    crc8From 0x00#8 p.b0 p.b1 p.b2 p.b3 ^^^ 1#8 <<< 7 = p.b4 ∧
      ∃ t, execValidAt ({} : Params) (withPacket 0x2D#8 0x31#8 0x0A#8 0x48#8 0x88#8) = .next t := ⟨by decide, _, rfl⟩
theorem witness_IdReturnsTheSensorId :
    (complete.Inv ∧ complete.regs.acquired = true ∧ ∃ t, exec .id complete = .next t) ∧
      (synced.Inv ∧ synced.regs.acquired = false ∧ 1 ≤ synced.regs.statCnt.class0.toNat ∧ ∃ t, exec .id synced = .next t) :=
  ⟨⟨complete_inv, by decide, _, rfl⟩, synced_inv, by decide, by decide, _, rfl⟩
/-- The bounds of the whole part and the fraction digit, with the digits of a text at each. -/
theorem witness_TextHasTheShape :
    (0 ≤ 999 ∧ 0 ≤ 9 ∧ render true 0 0 = [0x2D#8] ++ [0x30#8] ++ [0x2E#8, 0x30#8]) ∧
      (999 ≤ 999 ∧ 9 ≤ 9 ∧ render false 999 9 = [] ++ [0x39#8, 0x39#8, 0x39#8] ++ [0x2E#8, 0x39#8]) := by decide
theorem witness_SnapshotFieldsAgree : ∃ t, exec .pkt complete = .next t := ⟨_, rfl⟩
theorem witness_ClassifierRanges :
    Config.current.Admissible ∧ Params.Admissible { hiMin := 0, hiMax := 0, loMin := 1, loMax := 125, dw := 7 } ∧
      Params.Admissible { loMax := 254, dw := 12 } := by decide
theorem witness_invalid_samples :
    [0, 12, 28, 51, 69, 255].all (fun d => classify d == .invalid) = true ∧ [0, 12] ≠ ([] : List Nat) := by decide
theorem witness_SearchShiftsAndMatches :
    (classify 52).bit? = some false ∧ (classify 68).bit? = some false ∧ (classify 13).bit? = some true ∧
      (classify 27).bit? = some true ∧ State.reset.regs.state ≠ .acquiring ∧ searching.regs.state ≠ .acquiring := by decide
theorem witness_AcquiringStoresFoldsAndAdvances :
    synced.regs.state = .acquiring ∧ synced.regs.byteIdx.toNat ≤ 4 ∧ lastBit.regs.state = .acquiring ∧
      lastBit.regs.byteIdx.toNat ≤ 4 ∧ (classify 13).bit? = some true ∧ (classify 68).bit? = some false ∧
      8 * lastBit.regs.byteIdx.toNat + lastBit.regs.bitIdx.toNat = 39 := by decide
theorem witness_TransitionTable :
    (∃ t, exec (.accept 40) lastBit = .next t) ∧ (∃ t, exec (.accept 20) State.reset = .next t) ∧
      (∃ t, exec (.accept 60) searching = .next t) ∧ (∃ t, exec (.accept 20) synced = .next t) ∧
      (∃ t, exec (.accept 20) lastBit = .next t) ∧ Instr.stmean.duration? = none ∧ (∃ t, exec .stmean synced = .next t) ∧
      classify 40 = .invalid ∧ classify 20 ≠ .invalid ∧ lastBit.regs.byteIdx = 4#3 ∧ lastBit.regs.bitIdx = 7#3 :=
  ⟨⟨_, rfl⟩, ⟨_, rfl⟩, ⟨_, rfl⟩, ⟨_, rfl⟩, ⟨_, rfl⟩, rfl, ⟨_, rfl⟩, by decide, by decide, by decide, by decide⟩
theorem witness_AcceptFrame :
    (∃ t, exec (.accept 20) State.reset = .next t ∧ t.regs.state = .searching) ∧
      (∃ t, exec (.accept 60) searching = .next t ∧ t.regs.state = .acquiring) ∧
      (∃ t, exec (.accept 20) synced = .next t ∧ synced.regs.state = .acquiring ∧ t.regs.state ≠ .idle) ∧
      (classify 20).bit? = some true ∧ (classify 60).bit? = some false ∧ State.reset.regs.state ≠ .acquiring ∧
      searching.regs.state ≠ .acquiring :=
  ⟨⟨_, rfl, by decide⟩, ⟨_, rfl, by decide⟩, ⟨_, rfl, by decide, by decide⟩, by decide, by decide, by decide, by decide⟩
theorem witness_NothingWraps :
    Config.current.Admissible ∧ RegsInv Config.current lastBit.regs ∧ lastBit.regs.state = .acquiring ∧
      (classifyAt Config.current 68).bit? = some false ∧ (4 : Fin 5).val = lastBit.regs.byteIdx.toNat :=
  ⟨by decide, lastBit_inv, by decide, by decide, by decide⟩
theorem witness_PreambleLengthDoesNotMatter :
    searching.Inv ∧ searching.regs.state ≠ .acquiring ∧ (∀ e ∈ [13, 20, 27], classify e = .high) ∧ classify 52 = .low :=
  ⟨searching_inv, by decide, by decide, by decide⟩
theorem witness_StepKeepsTheInvariant : lastBit.Inv ∧ complete.Inv ∧ searching.Inv := ⟨lastBit_inv, complete_inv, searching_inv⟩
theorem witness_StepKeepsTheInvariantForAllParameters :
    (Config.current.Admissible ∧ RegsInv Config.current lastBit.regs) ∧
      (wide.Admissible ∧ ∀ u : Unspecified 20, RegsInv wide (resetRegs u : Regs.At wide)) := by
  refine ⟨⟨by decide, lastBit_inv⟩, by decide, fun u => ?_⟩
  constructor <;> simp [resetRegs]
theorem witness_AcceptKeepsTheInvariantForAllThresholds :
    Config.current.Admissible ∧ RegsInv Config.current synced.regs := ⟨by decide, synced_inv⟩
theorem witness_AcquiringPosition :
    Config.current.Admissible ∧ ∃ t, Reachable Config.current t ∧ t.regs.state = .acquiring :=
  ⟨by decide, _, .afterStep (s := offered 60) (.afterReset default _) rfl, by decide⟩
theorem witness_SearchingHistoryIsAllOnes :
    Config.current.Admissible ∧ ∃ s, Reachable Config.current s ∧ s.regs.state = .searching ∧
      (∃ t, execAt Config.current (.accept 60) s = .next t) ∧ (∃ t, execAt Config.current (.accept 20) s = .next t) ∧
      classifyAt Config.current 60 = .low ∧ classifyAt Config.current 20 = .high :=
  ⟨by decide, _, .afterStep (s := offered 20) (.afterReset default _) rfl, by decide, ⟨_, rfl⟩, ⟨_, rfl⟩, by decide, by decide⟩
theorem witness_FirstBitIsZero :
    Config.current.Admissible ∧ ∃ s, Reachable Config.current s ∧ (s.regs.acquired = true ∨ 1 ≤ s.regs.statCnt.class0.toNat) :=
  ⟨by decide, _, .afterStep (s := offered 60) (.afterReset default _) rfl, .inr (by decide)⟩
theorem witness_StatisticsStayInRange :
    Config.current.Admissible ∧ ∃ s, Reachable Config.current s ∧ 1 ≤ s.regs.statCnt.class0.toNat ∧ s.regs.statCnt.class1.toNat = 0 :=
  ⟨by decide, _, .afterStep (s := offered 60) (.afterReset default _) rfl, by decide, by decide⟩
theorem witness_StatisticsStayInRange_both :
    Config.current.Admissible ∧ ∃ s, Reachable Config.current s ∧ 1 ≤ s.regs.statCnt.class0.toNat ∧ 1 ≤ s.regs.statCnt.class1.toNat :=
  ⟨by decide, _, .afterStep (.afterStep (s := State.Of.resetWith default
      { State.reset with inputs := [Cycle.present 0x1034#16, Cycle.present 0x101B#16] }) (.afterReset default _) rfl) rfl,
    by decide, by decide⟩
theorem witness_FrameIsReceived :
    searching.Inv ∧ searching.regs.state ≠ .acquiring ∧ (∀ d ∈ [13, 27], classify d = .high) ∧ IsFrame sampleFrame ∧
      submitted ((([13, 27] ++ sampleFrame.dropLast).map .accept ++ [.acq, .stmean]) ++ [.accept 68]) =
        [13, 27] ++ sampleFrame :=
  ⟨searching_inv, by decide, by decide, sampleFrame_isFrame, by decide⟩
/-- The clause on each prefix, from a state with an unread completion that an ACQ clears. -/
theorem witness_FrameIsReceived_unread :
    complete.Inv ∧ complete.regs.state ≠ .acquiring ∧ complete.regs.acquired = true ∧
      submitted (([.acq] ++ sampleFrame.dropLast.map Instr.accept) ++ [.accept 68]) = [] ++ sampleFrame ∧
      ∃ u, runOps (([Instr.acq] ++ sampleFrame.dropLast.map Instr.accept).take 1) complete = .next u ∧ u.regs.acquired = false :=
  ⟨complete_inv, by decide, by decide, by decide, _, rfl, by decide⟩
/-- The clause on the sums, with an STMEAN before the sync match. -/
theorem witness_FrameIsReceived_sums :
    let before := [Instr.accept 13, .stmean, .accept 27, .stmean]
    let after := sampleFrame.dropLast.map Instr.accept ++ [.acq, .stmin]
    submitted ((before ++ after) ++ [.accept 68]) = [13, 27] ++ sampleFrame ∧ submitted before = [13, 27] ∧
      .stmean ∉ after := by decide
theorem witness_AcquisitionIgnoresTheConsumer :
    synced.Inv ∧ IsMerge [.accept 20, .accept 60] [.stmean] [Instr.accept 20, .stmean, .accept 60] ∧
      (∀ i ∈ [Instr.accept 20, .accept 60], i.duration? ≠ none) ∧ ∀ i ∈ [Instr.stmean], i.duration? = none :=
  ⟨synced_inv, .fromFirst (.fromSecond (.fromFirst .nil)), by decide, by decide⟩
theorem witness_PacketStandsUntilTheNextLowSample :
    complete.Inv ∧ complete.regs.state ≠ .acquiring ∧ noLowSample [.accept 255, .accept 20, .pkt, .acq] = true ∧
      .stmean ∉ [Instr.accept 255, .accept 20, .pkt, .acq] := ⟨complete_inv, by decide, by decide, by decide⟩
theorem witness_NextFrameZeroesTheUnreadPacket :
    complete.Inv ∧ complete.regs.state ≠ .acquiring ∧ classify 52 = .low ∧ complete.regs.acquired = true :=
  ⟨complete_inv, by decide, by decide, by decide⟩
theorem witness_AccessMatrixHolds :
    writes .stmean .statCnt = false ∧ (∃ t, exec .stmean complete = .next t) ∧
      (∀ g, reads .hum g = true →
        complete.regs.Agree g (withPacket 0x2D#8 0x31#8 0x0A#8 0x48#8 0x08#8).regs) ∧
      (∃ t, exec .hum complete = .next t) ∧ ∃ t, exec .hum (withPacket 0x2D#8 0x31#8 0x0A#8 0x48#8 0x08#8) = .next t := by
  refine ⟨by decide, ⟨_, rfl⟩, fun g hg => ?_, ⟨_, rfl⟩, ⟨_, rfl⟩⟩
  cases g <;> first | rfl | exact absurd hg (by decide)
theorem witness_SaturationKeepsTheClass :
    Config.current.Admissible ∧ Params.Admissible { hiMin := 0, hiMax := 0, loMin := 1, loMax := 125, dw := 7 } ∧
      2 ^ 8 - 1 < 276 ∧ Config.current.loMax < 69 := by decide
theorem witness_AssembledFrameIsReceived :
    (0x2D#8).getLsbD 7 = false ∧ complete.Inv ∧ complete.regs.state ≠ .acquiring := ⟨by decide, complete_inv, by decide⟩

end Sys2Proof.Tests
end

section
/-! SUPPORT. The registers' invariant `RegsInv` holds after reset and every operation keeps it, so it holds of every reachable
state (10_state.md R32 to R34). -/

namespace Sys2Proof

/-- A bit shifted into a byte below `2 ^ n` leaves it below `2 ^ (n + 1)`. -/
theorem shiftIn_lt {x : Byte} {n : Nat} (h : x.toNat < 2 ^ n) (b : Bool) :
    (x <<< 1 ||| (BitVec.ofBool b).setWidth 8).toNat < 2 ^ (n + 1) := by
  have hb : b.toNat ≤ 1 := b.toNat_le
  rw [shiftIn_toNat, pow_succ]
  omega

/-- The sensor id has 11 bits when the first byte has 7. -/
theorem Packet.sensorId_lt {p : Packet} (h : p.b0.toNat < 128) : p.sensorId.toNat < 2 ^ 11 := by
  have h1 := p.b1.isLt
  unfold Packet.sensorId
  rw [BitVec.toNat_or]
  apply Nat.or_lt_two_pow
  · simp [Nat.shiftLeft_eq]; omega
  · simp [Nat.shiftRight_eq_div_pow]; omega

namespace Machine

/-- ACCEPT is the one operation with a duration. -/
theorem eq_accept_of_duration? {i : Instr} {d : Nat} (h : i.duration? = some d) : i = .accept d := by
  cases i with
  | accept e => exact congrArg Instr.accept (Option.some.inj h)
  | _ => cases h

/-! The legal range of a class, and what the invariant says of one class's statistics. -/

/-- The lowest duration of class `b` (00_scope.md R6, R10). -/
def classMin (c : Params) (b : Bool) : Nat := if b then c.hiMin else c.loMin

/-- The highest duration of class `b` (00_scope.md R6, R10). -/
def classMax (c : Params) (b : Bool) : Nat := if b then c.hiMax else c.loMax

theorem classMax_le_loMax {c : Params} (hc : c.Admissible) (b : Bool) : classMax c b ≤ c.loMax := by
  obtain ⟨-, hgap, hlo, -⟩ := hc
  cases b with
  | false => exact le_rfl
  | true => exact (hgap.trans_le hlo).le

/-- A valid sample lies in the range of its class (40_accept.md R101, R102). -/
theorem sample_in_class {c : Params} {d : Nat} {b : Bool} (hc : c.Admissible) (hb : (classifyAt c d).bit? = some b) :
    classMin c b ≤ d ∧ d ≤ classMax c b := by
  obtain ⟨-, hgap, -⟩ := hc
  cases b with
  | true => exact classifyAt_high.mp (bit?_eq_true.mp hb)
  | false => exact (classifyAt_low hgap).mp (bit?_eq_false.mp hb)

/-- The statistics of class `b` after a sync match: the invariant's clauses on them, for either class. -/
structure ClassInv (c : Params) {sw cw : Nat} (r : Regs sw cw) (b : Bool) : Prop where
  /-- R145 -/
  range : 1 ≤ (r.statCnt.get b).toNat →
    classMin c b ≤ (r.statMin.get b).toNat ∧ (r.statMin.get b).toNat ≤ (r.statMax.get b).toNat ∧
      (r.statMax.get b).toNat ≤ classMax c b
  /-- R140, R141 -/
  unseen : (r.statCnt.get b).toNat = 0 →
    (r.statMin.get b).toNat = c.loMax + 1 ∧ (r.statMax.get b).toNat = 0 ∧ (r.statSum.get b).toNat = 0
  /-- R7 -/
  sum_le : (r.statSum.get b).toNat ≤ (r.statCnt.get b).toNat * classMax c b

theorem ClassInv.congr {c : Params} {sw cw : Nat} {r r' : Regs sw cw} {b : Bool} (h : ClassInv c r b)
    (hmin : r'.statMin.get b = r.statMin.get b) (hmax : r'.statMax.get b = r.statMax.get b)
    (hsum : r'.statSum.get b = r.statSum.get b) (hcnt : r'.statCnt.get b = r.statCnt.get b) : ClassInv c r' b where
  range := by rw [hcnt, hmin, hmax]; exact h.range
  unseen := by rw [hcnt, hmin, hmax, hsum]; exact h.unseen
  sum_le := by rw [hcnt, hsum]; exact h.sum_le

/-- The invariant's clauses on each class's statistics, once a sync match has happened. -/
theorem RegsInv.classInv {c : Params} {sw cw : Nat} {r : Regs sw cw} (h : RegsInv c r)
    (h0 : 1 ≤ r.statCnt.class0.toNat) (b : Bool) : ClassInv c r b := by
  cases b with
  | false => exact ⟨h.range_low, fun he => absurd he (by simp; omega), h.sum_low h0⟩
  | true => exact ⟨h.range_high, h.unseen_high h0, h.sum_high h0⟩

/-! The invariant under changes outside an acquisition. -/

section

variable {c : Params} {sw cw : Nat} {r r' : Regs sw cw}

/-- The invariant holds after reset, whatever the reset leaves open. -/
theorem regsInv_resetRegs (c : Params) (u : Unspecified sw) : RegsInv c (resetRegs u : Regs sw cw) := by
  -- IDLE, no completion, and both counts 0: every clause's premise fails, or it bounds a count of 0.
  constructor <;> simp

/-- The invariant passes to registers that hold the same packet and statistics, sums no larger, no new completion, and that
are in ACQUIRING only at the position the others are. -/
theorem RegsInv.transfer (h : RegsInv c r) (hhist : r'.state = .searching → r'.history = 0xFF#8)
    (hpos : r'.state = .acquiring → r.state = .acquiring ∧ r'.byteIdx = r.byteIdx ∧ r'.bitIdx = r.bitIdx)
    (hflag : r'.acquired = true → r.acquired = true) (hpkt : r'.packet = r.packet) (hmin : r'.statMin = r.statMin)
    (hmax : r'.statMax = r.statMax) (hcnt : r'.statCnt = r.statCnt)
    (hsum : ∀ k, (r'.statSum.get k).toNat ≤ (r.statSum.get k).toNat) : RegsInv c r' where
  searching_history := hhist
  acquiring_byte hs := by
    obtain ⟨hr, hbyte, -⟩ := hpos hs
    rw [hbyte]; exact h.acquiring_byte hr
  acquiring_count hs := by
    obtain ⟨hr, hbyte, hbit⟩ := hpos hs
    rw [hbyte, hbit, hcnt]; exact h.acquiring_count hr
  acquiring_started hs := by rw [hcnt]; exact h.acquiring_started (hpos hs).1
  acquiring_later hs := by
    obtain ⟨hr, hbyte, -⟩ := hpos hs
    rw [hbyte, hpkt]; exact h.acquiring_later hr
  acquiring_current hs := by
    obtain ⟨hr, hbyte, hbit⟩ := hpos hs
    rw [hbyte, hbit, hpkt]; exact h.acquiring_current hr
  acquiring_first hs := by
    obtain ⟨hr, hbyte, hbit⟩ := hpos hs
    rw [hbyte, hbit, hpkt]; exact h.acquiring_first hr
  synced_sign := by rw [hcnt, hpkt]; exact h.synced_sign
  acquired_synced hf := by rw [hcnt]; exact h.acquired_synced (hflag hf)
  counts_total := by rw [hcnt]; exact h.counts_total
  unsynced := by rw [hcnt]; exact h.unsynced
  range_low := by rw [hcnt, hmin, hmax]; exact h.range_low
  range_high := by rw [hcnt, hmin, hmax]; exact h.range_high
  unseen_high := by
    rw [hcnt, hmin, hmax]
    intro h0 h1
    obtain ⟨hmin1, hmax1, hsum1⟩ := h.unseen_high h0 h1
    exact ⟨hmin1, hmax1, Nat.le_zero.mp (hsum1 ▸ hsum true)⟩
  sum_low := by rw [hcnt]; exact fun h0 => (hsum false).trans (h.sum_low h0)
  sum_high := by rw [hcnt]; exact fun h0 => (hsum true).trans (h.sum_high h0)

/-- The synchronization reset keeps the invariant. -/
theorem RegsInv.syncReset_keeps (h : RegsInv c r) : RegsInv c r.syncReset :=
  h.transfer nofun nofun id rfl rfl rfl rfl fun _ => le_rfl

/-- Leaving IDLE keeps the invariant. -/
theorem RegsInv.leaveIdle_keeps (h : RegsInv c r) : RegsInv c r.leaveIdle :=
  h.transfer (fun _ => rfl) nofun id rfl rfl rfl rfl fun _ => le_rfl

/-- STMEAN's store never enlarges a sum: it divides it. -/
theorem Regs.storeMean_statSum_le (r : Regs sw cw) (b k : Bool) :
    ((r.storeMean b).statSum.get k).toNat ≤ (r.statSum.get k).toNat := by
  unfold Regs.storeMean
  split
  · exact le_rfl
  next m hm =>
    have hlt := mean?_lt hm
    have hle : m ≤ (r.statSum.get b).toNat := by
      unfold Regs.mean? at hm
      split at hm
      · cases hm
      · exact Option.some.inj hm ▸ Nat.div_le_self _ _
    by_cases hk : k = b
    · subst hk
      rwa [PerClass.get_set_same, BitVec.toNat_ofNat, Nat.mod_eq_of_lt hlt]
    · rw [Bool.eq_not.mpr hk, PerClass.get_set_other]

/-- Everything an operation other than ACCEPT can do to the registers. -/
theorem queryRegs_cases (c : Params) (i : Instr) (r : Regs sw cw) :
    queryRegs c i r = r ∨ queryRegs c i r = r.clearAcquired ∨
      queryRegs c i r = (r.storeMean false).storeMean true := by
  by_cases ha : i = .acq
  · exact .inr (.inl (ha ▸ rfl))
  · by_cases hm : i = .stmean
    · cases hmut : c.meanMutates with
      | true => exact .inr (.inr (by simp [hm, queryRegs, hmut]))
      | false => exact .inl (by simp [hm, queryRegs, hmut])
    · exact .inl (queryRegs_eq_self ha hm r)

/-- An operation other than ACCEPT never enlarges a sum. -/
theorem queryRegs_statSum_le (c : Params) (i : Instr) (r : Regs sw cw) (k : Bool) :
    ((queryRegs c i r).statSum.get k).toNat ≤ (r.statSum.get k).toNat := by
  obtain h | h | h := queryRegs_cases c i r <;> rw [h]
  · rw [Regs.clearAcquired_statSum]
  · exact ((r.storeMean false).storeMean_statSum_le true k).trans (r.storeMean_statSum_le false k)

/-- An operation other than ACCEPT sets no flag. -/
theorem queryRegs_acquired (c : Params) (i : Instr) (r : Regs sw cw) (hf : (queryRegs c i r).acquired = true) :
    r.acquired = true := by
  obtain h | h | h := queryRegs_cases c i r <;> rw [h] at hf
  · exact hf
  · cases hf
  · rwa [Regs.storeMean_acquired, Regs.storeMean_acquired] at hf

/-- An operation other than ACCEPT keeps the invariant. -/
theorem RegsInv.queryRegs_keeps (h : RegsInv c r) (i : Instr) : RegsInv c (queryRegs c i r) := by
  obtain ⟨hstate, hhist, hpkt, hbyte, hbit, hmin, hmax, hcnt⟩ := queryRegs_acquisition c i r
  refine h.transfer ?_ ?_ (queryRegs_acquired c i r) hpkt hmin hmax hcnt (queryRegs_statSum_le c i r)
  · rw [hstate, hhist]; exact h.searching_history
  · rw [hstate]; exact fun hs => ⟨hs, hbyte, hbit⟩

end

/-! The search: from a history of ones the first LOW sample matches, a HIGH one does not. -/

section

variable {c : Params} {sw cw : Nat} {r : Regs sw cw} {d : Nat}

/-- A LOW sample after a history of ones starts the frame (10_state.md R32). -/
theorem search_low_of_allOnes (hh : r.history = 0xFF#8) :
    r.search c d false = (r.shiftHistory false).syncMatch c d false := by
  rw [Regs.search_eq, hh, if_pos (by decide)]

/-- A HIGH sample after a history of ones leaves one again (10_state.md R32). -/
theorem search_high_of_allOnes (hh : r.history = 0xFF#8) : r.search c d true = r.shiftHistory true := by
  rw [Regs.search_eq, hh, if_neg (by decide)]

theorem shiftHistory_low_of_allOnes (hh : r.history = 0xFF#8) : (r.shiftHistory false).history = 0xFE#8 := by
  rw [Regs.shiftHistory_history, hh]; rfl

theorem shiftHistory_high_of_allOnes (hh : r.history = 0xFF#8) : (r.shiftHistory true).history = 0xFF#8 := by
  rw [Regs.shiftHistory_history, hh]; rfl

/-- Outside ACQUIRING a valid sample is searched from SEARCHING with a history of ones: IDLE is left in the same operation
(40_accept.md R105). -/
theorem RegsInv.exists_search {b : Bool} (h : RegsInv c r) (hs : r.state ≠ .acquiring)
    (hb : (classifyAt c d).bit? = some b) :
    ∃ q : Regs sw cw, RegsInv c q ∧ q.state = .searching ∧ q.history = 0xFF#8 ∧
      acceptRegs c d r = .ok (q.search c d b) := by
  match hr : r.state with
  | .idle => exact ⟨r.leaveIdle, h.leaveIdle_keeps, rfl, rfl, acceptRegs_idle hb hr⟩
  | .searching => exact ⟨r, h, hr, h.searching_history hr, acceptRegs_searching hb hr⟩
  | .acquiring => exact absurd hr hs

end

/-! The invariant under ACCEPT, for admissible parameters. -/

section

variable {c : Params} {r : Regs.At c} {d : Nat} {b : Bool}

/-- A sync match establishes the invariant from any registers. -/
theorem regsInv_syncMatch (hc : c.Admissible) (q : Regs.At c) (hd : c.loMin ≤ d ∧ d ≤ c.loMax) :
    RegsInv c (q.syncMatch c d false) := by
  obtain ⟨-, -, -, -, hlo, hsum, -, -, -, hcnt⟩ := hc
  have hone : 1 % 2 ^ c.cntw = 1 := by
    have : 2 ^ 6 ≤ 2 ^ c.cntw := Nat.pow_le_pow_right (by omega) hcnt
    exact Nat.mod_eq_of_lt (by omega)
  have hdsum : d % 2 ^ c.sumw = d := Nat.mod_eq_of_lt (by omega)
  have hdbyte : d % 256 = d := Nat.mod_eq_of_lt (by omega)
  rw [Regs.syncMatch_low c d q hd.2 hlo]
  -- Every register the invariant speaks of has a literal value now.
  constructor <;> simp [hone, hdsum, hdbyte] <;> omega

/-- Fewer than forty samples have been counted while the block is in ACQUIRING. -/
theorem RegsInv.position_le (h : RegsInv c r) (hs : r.state = .acquiring) :
    8 * r.byteIdx.toNat + r.bitIdx.toNat ≤ 39 := by
  have hbyte := h.acquiring_byte hs
  have hbit := r.bitIdx.isLt
  omega

/-- The count of one class is at most that of both. -/
theorem statCnt_get_le (r : Regs.At c) (b : Bool) :
    (r.statCnt.get b).toNat ≤ r.statCnt.class0.toNat + r.statCnt.class1.toNat := by
  cases b <;> simp

/-- In ACQUIRING neither the count nor the sum of the sample's class wraps (00_scope.md R7, 40_accept.md R111). -/
theorem RegsInv.fold_nowrap (h : RegsInv c r) (hc : c.Admissible) (hs : r.state = .acquiring) (hd : d ≤ classMax c b) :
    ((r.fold d b).statSum.get b).toNat = (r.statSum.get b).toNat + d ∧
      ((r.fold d b).statCnt.get b).toNat = (r.statCnt.get b).toNat + 1 := by
  have hpos := h.position_le hs
  have hcount := h.acquiring_count hs
  have hsum := (h.classInv (h.acquiring_started hs) b).sum_le
  have htop := classMax_le_loMax hc b
  obtain ⟨-, -, -, -, hlo, hsumw, -, -, -, hcntw⟩ := hc
  have hcnt : (r.statCnt.get b).toNat + 1 ≤ 40 := by have := statCnt_get_le r b; omega
  have htotal : (r.statSum.get b).toNat + d ≤ 40 * c.loMax := calc
    _ ≤ (r.statCnt.get b).toNat * classMax c b + classMax c b := Nat.add_le_add hsum hd
    _ = ((r.statCnt.get b).toNat + 1) * classMax c b := (Nat.succ_mul _ _).symm
    _ ≤ 40 * c.loMax := Nat.mul_le_mul hcnt htop
  have hwide : 2 ^ 6 ≤ 2 ^ c.cntw := Nat.pow_le_pow_right (by omega) hcntw
  obtain ⟨-, -, hsum', hcnt'⟩ := Regs.fold_own d b r (by omega)
  rw [hsum', hcnt', Nat.mod_eq_of_lt (by omega), Nat.mod_eq_of_lt (by omega)]
  exact ⟨rfl, rfl⟩

/-- The fold counts one sample more, and never one of class 0 less. -/
theorem RegsInv.fold_counts (h : RegsInv c r) (hc : c.Admissible) (hs : r.state = .acquiring) (hd : d ≤ classMax c b) :
    (r.fold d b).statCnt.class0.toNat + (r.fold d b).statCnt.class1.toNat =
        r.statCnt.class0.toNat + r.statCnt.class1.toNat + 1 ∧
      r.statCnt.class0.toNat ≤ (r.fold d b).statCnt.class0.toNat := by
  obtain ⟨-, hown⟩ := h.fold_nowrap hc hs hd
  obtain ⟨-, -, -, hother⟩ := Regs.fold_other d b r
  cases b <;>
    simp only [PerClass.get_false, PerClass.get_true, Bool.not_false, Bool.not_true] at hown hother <;>
    rw [hown, hother] <;> omega

/-- The fold of a valid sample keeps each class's statistics in its range. -/
theorem RegsInv.fold_classInv (h : RegsInv c r) (hc : c.Admissible) (hs : r.state = .acquiring)
    (hb : (classifyAt c d).bit? = some b) (k : Bool) : ClassInv c (r.fold d b) k := by
  obtain ⟨hlow, hhigh⟩ := sample_in_class hc hb
  have hk := h.classInv (h.acquiring_started hs) k
  by_cases hkb : k = b
  · subst hkb
    obtain ⟨hsum, hcnt⟩ := h.fold_nowrap hc hs hhigh
    have htop := classMax_le_loMax hc k
    obtain ⟨-, -, -, -, hlo, -⟩ := hc
    obtain ⟨hmin, hmax, -⟩ := Regs.fold_own d k r (by omega)
    have hrange := hk.range
    have hunseen := hk.unseen
    refine ⟨fun _ => ?_, fun h0 => ?_, ?_⟩
    · rw [hmin, hmax]; omega
    · omega
    · rw [hsum, hcnt, Nat.succ_mul]; exact Nat.add_le_add hk.sum_le hhigh
  · obtain ⟨hmin, hmax, hsum, hcnt⟩ := Regs.fold_other d b r
    rw [← Bool.eq_not.mpr hkb] at hmin hmax hsum hcnt
    exact hk.congr hmin hmax hsum hcnt

/-- The next bit goes into the same byte, or into the first place of the next one (40_accept.md R113). -/
theorem advance_position_cases (q : Regs.At c) (h : q.byteIdx.toNat ≤ 4) :
    (q.advance.byteIdx.toNat = q.byteIdx.toNat ∧ q.advance.bitIdx.toNat = q.bitIdx.toNat + 1) ∨
      (q.advance.byteIdx.toNat = q.byteIdx.toNat + 1 ∧ q.advance.bitIdx.toNat = 0 ∧ q.bitIdx.toNat = 7) := by
  obtain ⟨hpos, -⟩ := Regs.advance_position q h
  have hbit := q.bitIdx.isLt
  have hbit' := q.advance.bitIdx.isLt
  omega

/-- ACQUIRING either ends at the fortieth bit, in IDLE, or goes on inside the packet (40_accept.md R113). -/
theorem advance_state_cases (q : Regs.At c) (h : q.byteIdx.toNat ≤ 4) (hs : q.state = .acquiring) :
    q.advance.state = .idle ∨ q.advance.state = .acquiring ∧ q.advance.byteIdx.toNat ≤ 4 := by
  obtain ⟨hpos, hidle, hgoes, -⟩ := Regs.advance_position q h
  by_cases h39 : 8 * q.byteIdx.toNat + q.bitIdx.toNat = 39
  · exact .inl (hidle h39)
  · have hbit := q.bitIdx.isLt
    exact .inr ⟨(hgoes h39).trans hs, by omega⟩

/-! The packet after a bit stored in ACQUIRING (10_state.md R33, R34). -/

theorem RegsInv.storeBit_later (h : RegsInv c r) (hs : r.state = .acquiring) {i j : Fin 5} (hi : i.val = r.byteIdx.toNat)
    (hj : i < j) : (r.storeBit i b).packet.read j = 0x00#8 := by
  rw [Regs.storeBit_packet, Packet.read_write_other _ _ hj.ne']
  exact h.acquiring_later hs j (hi ▸ hj)

theorem RegsInv.storeBit_current (h : RegsInv c r) (hs : r.state = .acquiring) {i : Fin 5} (hi : i.val = r.byteIdx.toNat) :
    ((r.storeBit i b).packet.read i).toNat < 2 ^ (r.bitIdx.toNat + 1) := by
  rw [Regs.storeBit_packet, Packet.read_write_same]
  exact shiftIn_lt (h.acquiring_current hs i hi) b

/-- Byte 0 has one bit less than were taken, because the sync match took the first one without a shift. -/
theorem RegsInv.storeBit_first (h : RegsInv c r) (hs : r.state = .acquiring) (hbyte : r.byteIdx = 0) :
    ((r.storeBit 0 b).packet.read 0).toNat < 2 ^ r.bitIdx.toNat := by
  have hcount := h.acquiring_count hs
  have hstart := h.acquiring_started hs
  have hbit : r.bitIdx.toNat - 1 + 1 = r.bitIdx.toNat := by
    rw [hbyte] at hcount; simp at hcount; omega
  rw [Regs.storeBit_packet, Packet.read_write_same, ← hbit]
  exact shiftIn_lt (h.acquiring_first hs hbyte) b

/-- Bit 7 of byte 0 stays 0, whichever byte takes the bit. -/
theorem RegsInv.storeBit_sign (h : RegsInv c r) (hs : r.state = .acquiring) {i : Fin 5} (hi : i.val = r.byteIdx.toNat) :
    ((r.storeBit i b).packet.read 0).toNat < 128 := by
  by_cases h0 : i = 0
  · subst h0
    have hlt := h.storeBit_first (b := b) hs (BitVec.eq_of_toNat_eq hi.symm)
    have hpow : 2 ^ r.bitIdx.toNat ≤ 2 ^ 7 := Nat.pow_le_pow_right (by omega) (by omega)
    omega
  · rw [Regs.storeBit_packet, Packet.read_write_other _ _ (Ne.symm h0)]
    exact h.synced_sign (h.acquiring_started hs)

/-- A valid sample in ACQUIRING keeps the invariant. -/
theorem RegsInv.assemble_keeps (h : RegsInv c r) (hc : c.Admissible) (hs : r.state = .acquiring)
    (hb : (classifyAt c d).bit? = some b) {i : Fin 5} (hi : i.val = r.byteIdx.toNat) :
    RegsInv c ((r.storeBit i b).fold d b).advance := by
  obtain ⟨-, hhigh⟩ := sample_in_class hc hb
  have hbyte := h.acquiring_byte hs
  have hstart := h.acquiring_started hs
  have hcount := h.acquiring_count hs
  have hlimit := h.position_le hs
  obtain ⟨htotal, hclass0⟩ := h.fold_counts hc hs hhigh
  generalize hq : (r.storeBit i b).fold d b = q
  have hqstate : q.state = .acquiring := hq ▸ hs
  have hqbyte : q.byteIdx = r.byteIdx := hq ▸ rfl
  have hqbit : q.bitIdx = r.bitIdx := hq ▸ rfl
  have hpkt : q.advance.packet = (r.storeBit i b).packet := by rw [Regs.advance_packet, ← hq, Regs.fold_packet]
  have hcnt : q.advance.statCnt = (r.fold d b).statCnt := by rw [Regs.advance_statCnt, ← hq]; rfl
  have hstats : ∀ k, ClassInv c q.advance k := fun k =>
    (h.fold_classInv hc hs hb k).congr (by rw [Regs.advance_statMin, ← hq]; rfl) (by rw [Regs.advance_statMax, ← hq]; rfl)
      (by rw [Regs.advance_statSum, ← hq]; rfl) (by rw [hcnt])
  have hstarted : 1 ≤ q.advance.statCnt.class0.toNat := by rw [hcnt]; exact hstart.trans hclass0
  have hstate := advance_state_cases q (hqbyte ▸ hbyte) hqstate
  have hpos := advance_position_cases q (hqbyte ▸ hbyte)
  rw [hqbyte, hqbit, ← hi] at hpos
  exact
  { searching_history := fun hs' => by simp [hs'] at hstate
    acquiring_byte := fun hs' => by simpa [hs'] using hstate
    acquiring_count := fun _ => by rw [hcnt]; omega
    acquiring_started := fun _ => hstarted
    acquiring_later := fun _ j hj => by
      rw [hpkt]
      exact h.storeBit_later hs hi (Fin.lt_def.mpr (by omega))
    acquiring_current := fun _ j hj => by
      rw [hpkt]
      obtain ⟨hsame, hbit⟩ | ⟨hnext, hbit, -⟩ := hpos
      · rw [show j = i from Fin.ext (hj.trans hsame), hbit]
        exact h.storeBit_current hs hi
      · rw [h.storeBit_later hs hi (Fin.lt_def.mpr (by omega)), hbit]
        decide
    acquiring_first := fun _ h0 => by
      rw [hpkt]
      have h0' : q.advance.byteIdx.toNat = 0 := by rw [h0]; rfl
      obtain ⟨hsame, hbit⟩ | ⟨hnext, -⟩ := hpos
      · have hi0 : i = 0 := Fin.ext (by rw [← hsame, h0']; rfl)
        subst hi0
        rw [hbit]
        exact h.storeBit_first hs (BitVec.eq_of_toNat_eq hi.symm)
      · omega
    synced_sign := fun _ => by rw [hpkt]; exact h.storeBit_sign hs hi
    acquired_synced := fun _ => hstarted
    counts_total := by rw [hcnt]; omega
    unsynced := fun h0 => by omega
    range_low := (hstats false).range
    range_high := (hstats true).range
    unseen_high := fun _ => (hstats true).unseen
    sum_low := fun _ => (hstats false).sum_le
    sum_high := fun _ => (hstats true).sum_le }

/-- A search from a history of ones keeps the invariant: it matches exactly on a LOW sample. -/
theorem RegsInv.search_keeps (h : RegsInv c r) (hc : c.Admissible) (hs : r.state = .searching) (hh : r.history = 0xFF#8)
    (hb : (classifyAt c d).bit? = some b) : RegsInv c (r.search c d b) := by
  cases b with
  | false =>
    rw [search_low_of_allOnes hh]
    exact regsInv_syncMatch hc _ (sample_in_class hc hb)
  | true =>
    rw [search_high_of_allOnes hh]
    have hs' : (r.shiftHistory true).state ≠ .acquiring := by rw [Regs.shiftHistory_state, hs]; decide
    exact h.transfer (fun _ => shiftHistory_high_of_allOnes hh) (fun ha => absurd ha hs') id rfl rfl rfl rfl
      fun _ => le_rfl

/-- ACCEPT completes in every state of the invariant and keeps it. -/
theorem RegsInv.acceptRegs_keeps (h : RegsInv c r) (hc : c.Admissible) (d : Nat) :
    ∃ r', acceptRegs c d r = .ok r' ∧ RegsInv c r' := by
  cases hb : (classifyAt c d).bit? with
  | none => exact ⟨_, acceptRegs_invalid (bit?_eq_none.mp hb) r, h.syncReset_keeps⟩
  | some b =>
    by_cases hs : r.state = .acquiring
    · have hi : (⟨r.byteIdx.toNat, Nat.lt_succ_of_le (h.acquiring_byte hs)⟩ : Fin 5).val = r.byteIdx.toNat := rfl
      exact ⟨_, acceptRegs_acquiring hb hs hi, h.assemble_keeps hc hs hb hi⟩
    · obtain ⟨q, hq, hqs, hqh, hok⟩ := h.exists_search hs hb
      exact ⟨_, hok, hq.search_keeps hc hqs hqh hb⟩

end

/-! The invariant under a clock cycle, and in every reachable state. -/

section

variable {c : Params} {s : State.At c}

/-- Every operation completes in every state of the invariant and keeps it. -/
theorem RegsInv.execAt_keeps (h : RegsInv c s.regs) (hc : c.Admissible) (i : Instr) :
    ∃ t, execAt c i s = .next t ∧ RegsInv c t.regs := by
  cases hi : i.duration? with
  | none =>
    obtain ⟨data, st, he⟩ := execAt_query hi s
    exact ⟨_, he, h.queryRegs_keeps i⟩
  | some d =>
    obtain rfl := eq_accept_of_duration? hi
    obtain ⟨r, hr, hinv⟩ := h.acceptRegs_keeps hc d
    exact ⟨_, execAt_accept_ok hr, hinv⟩

/-- Every clock cycle completes in every state of the invariant and keeps it. -/
theorem RegsInv.stepAt_keeps (h : RegsInv c s.regs) (hc : c.Admissible) : ∃ t, stepAt c s = .next t ∧ RegsInv c t.regs := by
  unfold stepAt
  split
  · exact ⟨_, rfl, regsInv_resetRegs c _⟩
  next i _ => exact RegsInv.execAt_keeps (s := s.nextCycle.2) (by rwa [nextCycle_regs]) hc i

/-- The invariant holds of the registers in every reachable state. -/
theorem Reachable.regsInv (h : Reachable c s) (hc : c.Admissible) : RegsInv c s.regs := by
  induction h with
  | afterReset u s => exact regsInv_resetRegs c u
  | afterStep _ hstep ih =>
    obtain ⟨t, ht, hinv⟩ := ih.stepAt_keeps hc
    rwa [Host.Outcome.next.inj (hstep.symm.trans ht)]

end

end Machine

end Sys2Proof
end

section
/-! The statements of 10_state.md R32 to R34 about every reachable state, read off the invariant. -/

open Sys2Proof Sys2Proof.Machine

namespace Sys2Proof.Proofs.ReachableStates

/-- Settles O42: the invariant gives the history of ones, from which a LOW sample matches and a HIGH one shifts in another
one. -/
theorem searchingHistoryIsAllOnes : Obligations.SearchingHistoryIsAllOnes := by
  intro c s hc hreach
  have hinv := hreach.regsInv hc
  refine ⟨hinv.searching_history, fun d t hs hexec => ?_⟩
  obtain ⟨r, hr, rfl⟩ := execAt_accept_cases hexec
  rw [State.Of.respond_regs]
  refine ⟨fun hlow => ?_, fun hhigh => ?_⟩
  · obtain ⟨q, -, -, hqh, hok⟩ := hinv.exists_search hs (bit?_eq_false.mpr hlow)
    obtain rfl := Except.ok.inj (hr.symm.trans hok)
    rw [search_low_of_allOnes hqh]
    exact ⟨shiftHistory_low_of_allOnes hqh, rfl⟩
  · obtain ⟨q, -, hqs, hqh, hok⟩ := hinv.exists_search hs (bit?_eq_true.mpr hhigh)
    obtain rfl := Except.ok.inj (hr.symm.trans hok)
    rw [search_high_of_allOnes hqh]
    exact ⟨shiftHistory_high_of_allOnes hqh, hqs⟩

/-- Settles O43: the clauses of the invariant on ACQUIRING; the position is past (0, 0) because the counts add up to it. -/
theorem acquiringPosition : Obligations.AcquiringPosition := by
  intro c s hc hreach hs
  have hinv := hreach.regsInv hc
  have hcount := hinv.acquiring_count hs
  have hstart := hinv.acquiring_started hs
  refine ⟨hinv.acquiring_byte hs, Nat.le_of_lt_succ s.regs.bitIdx.isLt, fun h00 => ?_, by omega, hinv.position_le hs,
    hcount, hstart, hinv.acquiring_later hs, fun j hj k hk => ?_⟩
  · obtain ⟨hbyte, hbit⟩ := Prod.mk.inj h00
    simp [hbyte, hbit] at hcount
    omega
  · exact Nat.testBit_lt_two_pow ((hinv.acquiring_current hs j hj).trans_le (Nat.pow_le_pow_right (by omega) hk))

/-- Settles O44: an unread completion follows a sync match, after which byte 0 stays below 128. -/
theorem firstBitIsZero : Obligations.FirstBitIsZero := by
  intro c s hc hreach hsynced
  have hinv := hreach.regsInv hc
  have hsign := hinv.synced_sign (hsynced.elim hinv.acquired_synced id)
  exact ⟨Nat.le_of_lt_succ hsign, Nat.le_of_lt_succ (Packet.sensorId_lt hsign)⟩

end Sys2Proof.Proofs.ReachableStates
end

section
/-! SUPPORT. The rows of the operation map by their codes 0 to 11, what their masked patterns say of a word's fields, and what
a word decodes to when it selects one (30_encoding.md R82, R84). -/

namespace Sys2Proof

/-! A mask of leading ones compares a word's code and the upper part of its other twelve bits. -/

/-- Clearing the lowest `k` bits leaves `4096 * n` exactly when the code is `n` and the bits kept below it are zero. -/
theorem div_mul_eq_code_iff {k : Nat} (h : k ≤ 12) (v n : Nat) :
    v / 2 ^ k * 2 ^ k = 4096 * n ↔ v / 4096 = n ∧ v % 4096 / 2 ^ k = 0 := by
  have hpow : 2 ^ k * 2 ^ (12 - k) = 4096 := by rw [← pow_add, Nat.add_sub_cancel' h]; rfl
  have hsplit : v / 2 ^ k = 2 ^ (12 - k) * (v / 4096) + v % 4096 / 2 ^ k := by
    conv_lhs => rw [← Nat.div_add_mod v 4096, ← hpow, mul_assoc]
    rw [Nat.mul_add_div (by positivity), hpow]
  have hlow : v % 4096 / 2 ^ k * 2 ^ k ≤ v % 4096 := Nat.div_mul_le_self _ _
  have hzero : v % 4096 / 2 ^ k * 2 ^ k = 0 ↔ v % 4096 / 2 ^ k = 0 := by simp
  rw [hsplit, add_mul, mul_right_comm, mul_comm (2 ^ (12 - k)), hpow, ← hzero]
  omega

theorem and_highMask_toNat (k : Nat) (w : OpWord) :
    (w &&& BitVec.allOnes 16 <<< k).toNat = w.toNat / 2 ^ k * 2 ^ k := by
  rw [← BitVec.shiftLeft_ushiftRight, BitVec.toNat_shiftLeft, BitVec.toNat_ushiftRight, Nat.shiftRight_eq_div_pow,
    Nat.shiftLeft_eq, Nat.mod_eq_of_lt ((Nat.div_mul_le_self _ _).trans_lt w.isLt)]

theorem and_highMask_eq_iff {k n : Nat} (hk : k ≤ 12) {p : OpWord} (hp : p.toNat = 4096 * n) (w : OpWord) :
    w &&& BitVec.allOnes 16 <<< k = p ↔ w.toNat / 4096 = n ∧ w.toNat % 4096 / 2 ^ k = 0 := by
  rw [← BitVec.toNat_inj, and_highMask_toNat, hp]
  exact div_mul_eq_code_iff hk _ _

theorem acceptMask_eq_not (dw : Nat) : acceptMask dw = ~~~ BitVec.ofNat 16 (2 ^ dw - 1) := BitVec.allOnes_and

theorem acceptMask_toNat {dw : Nat} (h : dw ≤ 16) : (acceptMask dw).toNat = 65536 - 2 ^ dw := by
  have hpos : 0 < 2 ^ dw := by positivity
  have hle : 2 ^ dw ≤ 2 ^ 16 := Nat.pow_le_pow_right (by omega) h
  rw [acceptMask_eq_not, BitVec.toNat_not, BitVec.toNat_ofNat, Nat.mod_eq_of_lt (by omega)]
  omega

/-- ACCEPT's mask has its ones from bit `dw` up. -/
theorem acceptMask_eq_shiftLeft (dw : Nat) : acceptMask dw = BitVec.allOnes 16 <<< dw := by
  rw [acceptMask_eq_not]
  ext i hi
  simp [-BitVec.reduceAllOnes, ← BitVec.getLsbD_eq_getElem, BitVec.getLsbD_ofNat, hi]
  omega

/-! The rows by their codes. -/

/-- The row of the operation map with code `n`; ACCEPT's is the one code below 12 without a plain operation. -/
def rowOfCode (dw n : Nat) : OpRow :=
  match plainOperation n with
  | some i => ⟨i.mnemonic, encode i, 0xFFFF#16⟩
  | none => ⟨"ACCEPT", 0x1000#16, acceptMask dw⟩

theorem opRows_eq_map (dw : Nat) : opRows dw = (List.range 12).map (rowOfCode dw) := rfl

theorem forall_opRows_iff {dw : Nat} {P : OpRow → Prop} : (∀ r ∈ opRows dw, P r) ↔ ∀ n < 12, P (rowOfCode dw n) := by
  simp only [opRows_eq_map, List.forall_mem_map, List.mem_range]

theorem rowOfCode_of_some {n : Nat} {i : Instr} (h : plainOperation n = some i) (dw : Nat) :
    rowOfCode dw n = ⟨i.mnemonic, encode i, 0xFFFF#16⟩ := by
  simp only [rowOfCode, h]

theorem rowOfCode_one (dw : Nat) : rowOfCode dw 1 = ⟨"ACCEPT", 0x1000#16, acceptMask dw⟩ := rfl

/-- Every code below 12 but ACCEPT's has a plain operation. -/
theorem code_cases {n : Nat} (h : n < 12) : n = 1 ∨ ∃ i, plainOperation n = some i := by
  have hall : ∀ n < 12, n = 1 ∨ (plainOperation n).isSome := by decide
  exact (hall n h).imp_right Option.isSome_iff_exists.mp

theorem ne_one_of_plainOperation {n : Nat} {i : Instr} (h : plainOperation n = some i) : n ≠ 1 := by
  rintro rfl
  simp [plainOperation_accept] at h

/-- A word selects the row of its code, and only if the bits without a use are zero. -/
theorem rowOfCode_selects_iff {dw n : Nat} (h : dw ≤ 12) (hn : n < 12) (w : OpWord) :
    (rowOfCode dw n).Selects w ↔
      w.toNat / 4096 = n ∧ (n = 1 → w.toNat % 4096 / 2 ^ dw = 0) ∧ (n ≠ 1 → w.toNat % 4096 = 0) := by
  obtain rfl | ⟨i, hi⟩ := code_cases hn
  · rw [rowOfCode_one, OpRow.Selects, acceptMask_eq_shiftLeft, and_highMask_eq_iff (n := 1) h rfl]
    simp
  · obtain ⟨hword, -⟩ := plainOperation_encode hi
    rw [rowOfCode_of_some hi]
    simpa [ne_one_of_plainOperation hi] using and_highMask_eq_iff (k := 0) (by omega) hword w

theorem reservedRow_selects_iff (w : OpWord) : reservedRow.Selects w ↔ 12 ≤ w.toNat / 4096 := by
  have hw := w.isLt
  have hmask : (w &&& BitVec.allOnes 16 <<< 14).toNat = w.toNat / 2 ^ 14 * 2 ^ 14 := and_highMask_toNat 14 w
  rw [OpRow.Selects, ← BitVec.toNat_inj]
  change (w &&& BitVec.allOnes 16 <<< 14).toNat = 49152 ↔ _
  omega

/-- The three cases of R84 in numbers. -/
theorem illegalWordAt_iff (dw : Nat) (w : OpWord) : illegalWordAt dw w = true ↔
    12 ≤ w.toNat / 4096 ∨ (w.toNat / 4096 = 1 ∧ w.toNat % 4096 / 2 ^ dw ≠ 0) ∨
      (w.toNat / 4096 ≠ 1 ∧ w.toNat % 4096 ≠ 0) := by
  simp only [illegalWordAt, Bool.or_eq_true, Bool.and_eq_true, decide_eq_true_eq, beq_iff_eq, bne_iff_ne, or_assoc]

/-- A word is illegal exactly when it selects no legal row (30_encoding.md R84). -/
theorem no_row_selects_iff {dw : Nat} (h : dw ≤ 12) (w : OpWord) :
    (∀ r ∈ opRows dw, ¬r.Selects w) ↔ illegalWordAt dw w = true := by
  rw [forall_opRows_iff, illegalWordAt_iff]
  constructor
  · intro hnone
    by_contra hlegal
    have hcode : w.toNat / 4096 < 12 := by omega
    exact hnone _ hcode ((rowOfCode_selects_iff h hcode w).mpr (by omega))
  · intro hill n hn hs
    rw [rowOfCode_selects_iff h hn] at hs
    omega

/-- No word selects two of the thirteen rows: the legal ones ask for different codes, the reserved one for a code above. -/
theorem rows_disjoint {dw : Nat} (h : dw ≤ 12) (w : OpWord) :
    (opRows dw ++ [reservedRow]).Pairwise fun a b => ¬(a.Selects w ∧ b.Selects w) := by
  have hcode {n : Nat} (hn : n < 12) (hs : (rowOfCode dw n).Selects w) : w.toNat / 4096 = n :=
    ((rowOfCode_selects_iff h hn w).mp hs).1
  rw [opRows_eq_map, List.pairwise_append, List.pairwise_map]
  refine ⟨List.pairwise_lt_range.imp_of_mem fun hm hn hlt ⟨hsm, hsn⟩ => ?_, List.pairwise_singleton _ _, ?_⟩
  · have := hcode (List.mem_range.mp hm) hsm
    have := hcode (List.mem_range.mp hn) hsn
    omega
  · rw [List.forall_mem_map]
    rintro n hn r hr ⟨hs, hres⟩
    obtain rfl := List.mem_singleton.mp hr
    have := hcode (List.mem_range.mp hn) hs
    have := (reservedRow_selects_iff w).mp hres
    have := List.mem_range.mp hn
    omega

/-! What a word decodes to when it selects a row. -/

theorem decodeAt_mnemonic_of_selects {dw n : Nat} (h : dw ≤ 12) (hn : n < 12) {w : OpWord}
    (hs : (rowOfCode dw n).Selects w) : (decodeAt dw w).mnemonic = (rowOfCode dw n).mnemonic := by
  obtain ⟨hcode, hrest, hlow⟩ := (rowOfCode_selects_iff h hn w).mp hs
  obtain rfl | ⟨i, hi⟩ := code_cases hn
  · have hd : decodeAt dw w = .accept (durField dw w) := by
      simp [decodeAt, decodeLegalAt, opcField_eq, rsvField_eq h, hcode, hrest]
    rw [hd]; rfl
  · have h1 := ne_one_of_plainOperation hi
    have hd : decodeAt dw w = i := by
      simp [decodeAt, decodeLegalAt, opcField_eq, lowField_eq, hcode, h1, hlow h1, hi]
    rw [hd, rowOfCode_of_some hi]

theorem rowOfCode_mnemonic_congr (dw dw' n : Nat) : (rowOfCode dw n).mnemonic = (rowOfCode dw' n).mnemonic := by
  unfold rowOfCode
  split <;> rfl

theorem rowOfCode_mnemonic_inj {dw m n : Nat} (hm : m < 12) (hn : n < 12)
    (h : (rowOfCode dw m).mnemonic = (rowOfCode dw n).mnemonic) : m = n := by
  have hall : ∀ m < 12, ∀ n < 12, (rowOfCode 8 m).mnemonic = (rowOfCode 8 n).mnemonic → m = n := by decide
  rw [rowOfCode_mnemonic_congr dw 8 m, rowOfCode_mnemonic_congr dw 8 n] at h
  exact hall m hm n hn h

theorem rowOfCode_mnemonic_ne_reserved {n : Nat} (hn : n < 12) (dw : Nat) : (rowOfCode dw n).mnemonic ≠ "RESERVED" := by
  have hall : ∀ n < 12, (rowOfCode 8 n).mnemonic ≠ "RESERVED" := by decide
  rw [rowOfCode_mnemonic_congr dw 8]
  exact hall n hn

/-- A word selects exactly the legal row whose mnemonic it decodes to. -/
theorem selects_iff_decodeAt_mnemonic {dw : Nat} (h : dw ≤ 12) (w : OpWord) :
    ∀ r ∈ opRows dw, r.Selects w ↔ (decodeAt dw w).mnemonic = r.mnemonic := by
  rw [forall_opRows_iff]
  refine fun n hn => ⟨decodeAt_mnemonic_of_selects h hn, fun hmn => ?_⟩
  by_cases hill : illegalWordAt dw w = true
  · rw [decodeAt_illegal h hill] at hmn
    exact absurd hmn.symm (rowOfCode_mnemonic_ne_reserved hn dw)
  · obtain ⟨m, hm, hs⟩ : ∃ m < 12, (rowOfCode dw m).Selects w := by
      by_contra hnone
      push Not at hnone
      exact hill ((no_row_selects_iff h w).mp (forall_opRows_iff.mpr hnone))
    obtain rfl := rowOfCode_mnemonic_inj hm hn ((decodeAt_mnemonic_of_selects h hm hs).symm.trans hmn)
    exact hs

end Sys2Proof
end

section
/-! The statements of 30_encoding.md R82 and R84 about the rows and the words that select none. -/

open Sys2Proof Sys2Proof.Machine

namespace Sys2Proof.Proofs.OperationMap

/-- Settles O4: a row is selected by its code and the bits without a use, which is how the decoder reads a word. -/
theorem wordsSelectRows : Obligations.WordsSelectRows := by
  refine ⟨by decide, rfl, fun dw _ h => ⟨acceptMask_toNat (by omega), fun w => ?_⟩⟩
  refine ⟨selects_iff_decodeAt_mnemonic h w, fun hres => decodeAt_illegal h ?_, rows_disjoint h w⟩
  obtain hres | hnone := hres
  · exact (illegalWordAt_iff dw w).mpr (.inl ((reservedRow_selects_iff w).mp hres))
  · exact (no_row_selects_iff h w).mp fun r hr => hnone r (List.mem_append_left _ hr)

/-- Settles O5: a word that selects no row is an illegal one, which decodes to RESERVED. -/
theorem illegalWordsHaveNoEffect : Obligations.IllegalWordsHaveNoEffect := by
  intro w
  have hnone := no_row_selects_iff (dw := 8) (by decide) w
  refine ⟨?_, fun h => ⟨decodeAt_illegal (by decide) (hnone.mp h), fun s => rfl⟩⟩
  rw [hnone, illegalWordAt_iff]
  omega

end Sys2Proof.Proofs.OperationMap
end

section
/-! SUPPORT. What ACCEPT of a valid sample does: outside ACQUIRING one search that leaves IDLE in the same operation, in
ACQUIRING one bit stored, folded and counted (40_accept.md R104 to R115). -/

namespace Sys2Proof

theorem classifyAt_invalid {c : Params} {d : Nat} :
    classifyAt c d = .invalid ↔ ¬(c.hiMin ≤ d ∧ d ≤ c.hiMax) ∧ ¬(c.loMin ≤ d ∧ d ≤ c.loMax) := by
  unfold classifyAt
  split
  · simp_all
  · split <;> simp_all

theorem exists_bit_of_valid {y : Symbol} (h : y ≠ .invalid) : ∃ b, y.bit? = some b :=
  Option.ne_none_iff_exists'.mp (mt bit?_eq_none.mp h)

namespace Machine

variable {c : Params} {sw cw : Nat} {d : Nat} {b : Bool}

/-- A valid sample fits in the bytes of the minima and maxima. -/
theorem sample_lt_256 (hb : (classify d).bit? = some b) : d < 256 := by
  obtain ⟨-, htop⟩ := sample_in_class (c := Config.current) (by decide) hb
  have hbound : classMax Config.current b ≤ 68 := classMax_le_loMax (by decide) b
  omega

namespace Regs

/-! The search outside ACQUIRING. -/

/-- The registers a valid sample outside ACQUIRING is searched from: the history is all ones when it leaves IDLE (R105). -/
def searchFrom (r : Regs sw cw) : Regs sw cw :=
  { r with state := .searching, history := if r.state = .idle then Config.histInit else r.history }

theorem searchFrom_of_idle {r : Regs sw cw} (h : r.state = .idle) : r.searchFrom = r.leaveIdle := by
  simp [searchFrom, leaveIdle, h]

theorem searchFrom_of_searching {r : Regs sw cw} (h : r.state = .searching) : r.searchFrom = r := by
  cases r
  cases h
  rfl

theorem searchFrom_history_toNat (r : Regs sw cw) :
    r.searchFrom.history.toNat = if r.state = .idle then 255 else r.history.toNat := by
  unfold searchFrom
  split <;> rfl

theorem shiftHistory_eq_ofNat (b : Bool) (r : Regs sw cw) :
    r.shiftHistory b = { r with history := BitVec.ofNat 8 ((2 * r.history.toNat + b.toNat) % 256) } := by
  rw [← shiftIn_toNat, BitVec.ofNat_toNat, BitVec.setWidth_eq]
  rfl

/-- The state after a search tells whether the shifted history ends in the pattern (R107 to R109). -/
theorem search_state {r : Regs sw cw} (h : r.state = .searching) :
    (r.search c d b).state = if (r.search c d b).history.toNat % 8 = 6 then .acquiring else .searching := by
  unfold search
  by_cases hm : (r.shiftHistory b).patternMatches = true
  · simp only [if_pos hm, syncMatch_state, syncMatch_history, if_pos ((patternMatches_iff _).mp hm)]
  · simp only [if_neg hm, shiftHistory_state, h, if_neg (mt (patternMatches_iff _).mpr hm)]

/-- A search that leaves SEARCHING has only shifted the history (R109). -/
theorem search_of_searching {r : Regs sw cw} (h : (r.search c d b).state = .searching) :
    r.search c d b = r.shiftHistory b := by
  rw [search_eq] at h ⊢
  split at h
  · cases h
  next hm => exact if_neg hm

theorem search_acquired (r : Regs sw cw) : (r.search c d b).acquired = r.acquired := by
  rw [search_eq]
  split <;> rfl

/-! The sample taken in ACQUIRING. -/

/-- What a valid sample does in ACQUIRING when byte `i` is in progress (R111 to R113). -/
def takeSample (i : Fin 5) (d : Nat) (b : Bool) (r : Regs sw cw) : Regs sw cw := ((r.storeBit i b).fold d b).advance

@[simp] theorem takeSample_history (i : Fin 5) (r : Regs sw cw) : (r.takeSample i d b).history = r.history :=
  advance_history _

theorem takeSample_read (i j : Fin 5) (r : Regs sw cw) :
    (r.takeSample i d b).packet.read j =
      if j = i then r.packet.read i <<< 1 ||| (BitVec.ofBool b).setWidth 8 else r.packet.read j := by
  rw [takeSample, advance_packet, fold_packet, storeBit_packet, Packet.read_write]

/-- The position goes up by one, and the fortieth bit completes the frame. -/
theorem takeSample_position (r : Regs sw cw) {i : Fin 5} (hi : i.val = r.byteIdx.toNat) (hs : r.state = .acquiring) :
    8 * (r.takeSample i d b).byteIdx.toNat + (r.takeSample i d b).bitIdx.toNat =
        8 * r.byteIdx.toNat + r.bitIdx.toNat + 1 ∧
      (r.takeSample i d b).state = (if 8 * r.byteIdx.toNat + r.bitIdx.toNat = 39 then .idle else .acquiring) ∧
      (r.takeSample i d b).acquired = (r.acquired || 8 * r.byteIdx.toNat + r.bitIdx.toNat == 39) := by
  obtain ⟨hpos, hidle, hgoes, hflag⟩ := advance_position ((r.storeBit i b).fold d b) (by simp; omega)
  refine ⟨hpos, ?_, hflag⟩
  split
  next h => exact hidle h
  next h => exact (hgoes h).trans hs

/-- The statistics of the sample's own class, in numbers. -/
theorem takeSample_own (i : Fin 5) (r : Regs sw cw) (hd : d < 256) :
    ((r.takeSample i d b).statMin.get b).toNat = min (r.statMin.get b).toNat d ∧
      ((r.takeSample i d b).statMax.get b).toNat = max (r.statMax.get b).toNat d ∧
      ((r.takeSample i d b).statSum.get b).toNat = ((r.statSum.get b).toNat + d) % 2 ^ sw ∧
      ((r.takeSample i d b).statCnt.get b).toNat = ((r.statCnt.get b).toNat + 1) % 2 ^ cw := by
  rw [takeSample, advance_statMin, advance_statMax, advance_statSum, advance_statCnt]
  exact fold_own d b (r.storeBit i b) hd

/-- The other class stands. -/
theorem takeSample_other (i : Fin 5) (r : Regs sw cw) :
    (r.takeSample i d b).statMin.get (!b) = r.statMin.get (!b) ∧
      (r.takeSample i d b).statMax.get (!b) = r.statMax.get (!b) ∧
      (r.takeSample i d b).statSum.get (!b) = r.statSum.get (!b) ∧
      (r.takeSample i d b).statCnt.get (!b) = r.statCnt.get (!b) := by
  rw [takeSample, advance_statMin, advance_statMax, advance_statSum, advance_statCnt]
  exact fold_other d b (r.storeBit i b)

end Regs

variable {r r' : Regs sw cw}

/-- Outside ACQUIRING a valid sample is searched, in the operation that leaves IDLE too (R104, R105). -/
theorem acceptRegs_search (hb : (classifyAt c d).bit? = some b) (hs : r.state ≠ .acquiring) :
    acceptRegs c d r = .ok (r.searchFrom.search c d b) := by
  match hr : r.state with
  | .idle => rw [Regs.searchFrom_of_idle hr]; exact acceptRegs_idle hb hr
  | .searching => rw [Regs.searchFrom_of_searching hr]; exact acceptRegs_searching hb hr
  | .acquiring => exact absurd hr hs

/-- A valid sample that completes in ACQUIRING is taken into the byte in progress. -/
theorem acceptRegs_takeSample (hb : (classifyAt c d).bit? = some b) (hs : r.state = .acquiring)
    (h : acceptRegs c d r = .ok r') : ∃ i : Fin 5, i.val = r.byteIdx.toNat ∧ r' = r.takeSample i d b := by
  obtain hbyte | hbyte := Nat.lt_or_ge r.byteIdx.toNat 5
  · exact ⟨⟨_, hbyte⟩, rfl, Except.ok.inj (h.symm.trans (acceptRegs_acquiring hb hs rfl))⟩
  · rw [acceptRegs_outside hb hs hbyte] at h
    cases h

end Machine

end Sys2Proof
end

section
/-! The statements of 40_accept.md R101 to R116 about one ACCEPT. -/

open Sys2Proof Sys2Proof.Machine

namespace Sys2Proof.Proofs.Accept

/-- Settles O31: the synchronization reset is the whole effect of an INVALID sample. -/
theorem invalidSampleOnlyResets : Obligations.InvalidSampleOnlyResets :=
  fun _ s h => exec_accept_ok (acceptRegs_invalid h s.regs)

/-- Settles O30: the three ranges of the classifier, which the gap between the thresholds keeps apart. -/
theorem classifierRanges : Obligations.ClassifierRanges := by
  refine ⟨fun c d hc => ?_, fun d => ⟨classifyAt_high, classifyAt_low (by decide), ?_⟩, fun d s h => ?_⟩
  · obtain ⟨-, hgap, -⟩ := hc
    exact ⟨classifyAt_high, classifyAt_low hgap, classifyAt_invalid⟩
  · refine classifyAt_invalid.trans ?_
    change ¬(13 ≤ d ∧ d ≤ 27) ∧ ¬(52 ≤ d ∧ d ≤ 68) ↔ _
    omega
  · exact ⟨_, invalidSampleOnlyResets d s h, rfl⟩

/-- Settles O33: the search in arithmetic; only a LOW sample matches, and it alone is then folded into fresh statistics. -/
theorem searchShiftsAndMatches : Obligations.SearchShiftsAndMatches := by
  intro d b s hb hs old new
  have hold : s.regs.searchFrom.history.toNat = old := s.regs.searchFrom_history_toNat
  rw [exec_accept_ok (acceptRegs_search hb hs), Regs.search_eq, Regs.shiftHistory_eq_ofNat, hold]
  have hmod : (2 * old + b.toNat) % 8 = new % 8 := (Nat.mod_mod_of_dvd _ (by decide)).symm
  rw [hmod]
  by_cases hm : new % 8 = 6
  · obtain rfl := Regs.match_bit_false (hmod.trans hm)
    obtain ⟨-, htop⟩ := sample_in_class (by decide) hb
    rw [if_pos hm, if_pos hm, Regs.syncMatch_low _ _ _ htop (by decide)]
    rfl
  · rw [if_neg hm, if_neg hm]
    rfl

/-- Settles O34: the sample taken into the byte in progress, its bit in arithmetic. -/
theorem acquiringStoresFoldsAndAdvances : Obligations.AcquiringStoresFoldsAndAdvances := by
  intro d b s hb hs hbyte pos
  let i : Fin 5 := ⟨s.regs.byteIdx.toNat, Nat.lt_succ_of_le hbyte⟩
  obtain ⟨hpos, hstate, hflag⟩ := s.regs.takeSample_position (d := d) (b := b) (i := i) rfl hs
  obtain ⟨hmin, hmax, hsum, hcnt⟩ := s.regs.takeSample_own i (sample_lt_256 hb)
  refine ⟨s.regs.takeSample i d b, exec_accept_ok (acceptRegs_acquiring hb hs rfl), fun j => ?_, hpos, hstate, hflag,
    Regs.takeSample_history i s.regs, hmin, hmax, hsum, hcnt, s.regs.takeSample_other i⟩
  rw [Regs.takeSample_read]
  by_cases hj : j = i
  · subst hj
    rw [if_pos rfl, if_pos rfl, shiftIn_toNat]
  · rw [if_neg hj, if_neg fun h => hj (Fin.ext h)]

/-- Settles O35: a search ends by its pattern test, a sample taken by its position; no query touches `state`. -/
theorem transitionTable : Obligations.TransitionTable := by
  refine ⟨fun d s t h => ?_, fun i s t hi h => ?_, fun _ _ _ => rfl⟩
  · obtain ⟨r, hr, rfl⟩ := exec_accept_cases h
    rw [State.Of.respond_regs]
    refine ⟨fun hinv => ?_, fun hval hs => ?_, fun hval hs => ?_⟩
    · rw [← Except.ok.inj ((acceptRegs_invalid hinv s.regs).symm.trans hr)]
      rfl
    · obtain ⟨b, hb⟩ := exists_bit_of_valid hval
      rw [← Except.ok.inj ((acceptRegs_search hb hs).symm.trans hr)]
      exact Regs.search_state rfl
    · obtain ⟨b, hb⟩ := exists_bit_of_valid hval
      obtain ⟨i, hi, rfl⟩ := acceptRegs_takeSample hb hs hr
      obtain ⟨-, hstate, hflag⟩ := s.regs.takeSample_position (d := d) (b := b) hi hs
      have hbit := s.regs.bitIdx.isLt
      have hlast : s.regs.byteIdx = 4#3 ∧ s.regs.bitIdx = 7#3 ↔ 8 * s.regs.byteIdx.toNat + s.regs.bitIdx.toNat = 39 := by
        rw [← BitVec.toNat_inj, ← BitVec.toNat_inj]
        simp only [BitVec.toNat_ofNat]
        omega
      simp only [hlast]
      by_cases h39 : 8 * s.regs.byteIdx.toNat + s.regs.bitIdx.toNat = 39
      · rw [if_pos h39] at hstate ⊢
        exact ⟨hstate, by rw [hflag, h39]; exact Bool.or_true _⟩
      · rw [if_neg h39] at hstate ⊢
        exact hstate
  · obtain ⟨_, _, he⟩ := exec_query hi s
    rw [← Host.Outcome.next.inj (he.symm.trans h)]
    exact (queryRegs_acquisition _ i s.regs).1

/-- Settles O36: a search without a match writes the history and the state alone, a sample taken writes its byte, its class and
the position. -/
theorem acceptFrame : Obligations.AcceptFrame := by
  intro d b s t hb h
  obtain ⟨r, hr, rfl⟩ := exec_accept_cases h
  refine ⟨fun hs hsearch => ?_, fun hs _ => ?_, fun hs => ?_, rfl, rfl, rfl⟩
  · obtain rfl := Except.ok.inj ((acceptRegs_search hb hs).symm.trans hr)
    rw [State.Of.respond_regs] at hsearch ⊢
    rw [Regs.search_of_searching hsearch]
    rfl
  · obtain rfl := Except.ok.inj ((acceptRegs_search hb hs).symm.trans hr)
    exact Regs.search_acquired _
  · obtain ⟨i, hi, rfl⟩ := acceptRegs_takeSample hb hs hr
    obtain ⟨-, hstate, hflag⟩ := s.regs.takeSample_position (d := d) (b := b) hi hs
    obtain ⟨hmin, hmax, hsum, hcnt⟩ := s.regs.takeSample_other (d := d) (b := b) i
    rw [State.Of.respond_regs]
    refine ⟨Regs.takeSample_history i s.regs, fun j hj => ?_, hmin, hmax, hsum, hcnt, fun hgoes => ?_⟩
    · rw [Regs.takeSample_read, if_neg fun hji : j = i => hj (hji ▸ hi)]
    · have h39 : 8 * s.regs.byteIdx.toNat + s.regs.bitIdx.toNat ≠ 39 := fun h39 => hgoes (by rw [hstate, if_pos h39])
      rw [hflag, beq_false_of_ne h39, Bool.or_false]

end Sys2Proof.Proofs.Accept
end

section
/-! SUPPORT. A frame on its way in: what holds of the registers while a preamble and a frame are submitted, which every
operation of either client keeps (40_accept.md R117). -/

namespace Sys2Proof

/-! The samples of a class, one more at a time. -/

theorem ofClass_concat_same {b : Bool} {d : Nat} (hb : (classify d).bit? = some b) (ds : List Nat) :
    ofClass b (ds ++ [d]) = ofClass b ds ++ [d] := by
  simp [ofClass, List.filter_append, hb]

theorem ofClass_concat_other {b : Bool} {d : Nat} (hb : (classify d).bit? = some b) (ds : List Nat) :
    ofClass (!b) (ds ++ [d]) = ofClass (!b) ds := by
  simp [ofClass, List.filter_append, hb]

theorem classify_beq_high {b : Bool} {d : Nat} (hb : (classify d).bit? = some b) : (classify d == .high) = b := by
  cases b with
  | true => rw [bit?_eq_true.mp hb]; rfl
  | false => rw [bit?_eq_false.mp hb]; rfl

/-! The bits of a byte that takes one more at its low end. -/

theorem shiftIn_getLsbD_zero (x : Byte) (b : Bool) : (x <<< 1 ||| (BitVec.ofBool b).setWidth 8).getLsbD 0 = b := by
  simp

theorem shiftIn_getLsbD_succ (x : Byte) (b : Bool) {k : Nat} (hk : k < 7) :
    (x <<< 1 ||| (BitVec.ofBool b).setWidth 8).getLsbD (k + 1) = x.getLsbD k := by
  simp [show k + 1 < 8 by omega, -BitVec.getLsbD_eq_getElem]

namespace Machine

variable {clean : Bool} {ds frame rest : List Nat} {r r' : Regs 16 8} {b : Bool} {d : Nat}

/-- The statistics of class `b` are those of its samples `ds`; the sum, if no STMEAN has divided it (`clean`). -/
structure ClassFolded (clean : Bool) (ds : List Nat) (r : Regs 16 8) (b : Bool) : Prop where
  count : (r.statCnt.get b).toNat = ds.length
  min : (r.statMin.get b).toNat = ds.foldl min 69
  max : (r.statMax.get b).toNat = ds.foldl max 0
  sum : clean = true → (r.statSum.get b).toNat = ds.sum

theorem ClassFolded.congr (h : ClassFolded clean ds r b) (hmin : r'.statMin.get b = r.statMin.get b)
    (hmax : r'.statMax.get b = r.statMax.get b) (hcnt : r'.statCnt.get b = r.statCnt.get b)
    (hsum : clean = true → r'.statSum.get b = r.statSum.get b) : ClassFolded clean ds r' b where
  count := hcnt ▸ h.count
  min := hmin ▸ h.min
  max := hmax ▸ h.max
  sum hc := hsum hc ▸ h.sum hc

/-- The registers after the first samples `ds` of a frame. A byte's bits stand at its low end, the latest lowest. -/
structure FrameTaken (clean : Bool) (ds : List Nat) (r : Regs 16 8) : Prop where
  inv : RegsInv Config.current r
  position : 8 * r.byteIdx.toNat + r.bitIdx.toNat = ds.length
  state : r.state = if ds.length = 40 then .idle else .acquiring
  bits : ∀ (k : Fin 5) (j : Nat), j < 8 → 8 * k.val + j < ds.length →
    (r.packet.read k).getLsbD (min 8 (ds.length - 8 * k.val) - 1 - j) =
      (classify (ds.getD (8 * k.val + j) 0) == .high)
  classes : ∀ b, ClassFolded clean (ofClass b ds) r b

/-- The samples `rest` are still to come, of a preamble of HIGH samples and `frame`, or of `frame` alone. -/
inductive Receiving (clean : Bool) (frame : List Nat) : List Nat → Regs 16 8 → Prop where
  | preamble {highs : List Nat} {r : Regs 16 8} (hinv : RegsInv Config.current r) (hs : r.state ≠ .acquiring)
      (hhigh : ∀ d ∈ highs, classify d = .high) : Receiving clean frame (highs ++ frame) r
  | inFrame {ds rest : List Nat} {r : Regs 16 8} (hsplit : ds ++ rest = frame) (hne : ds ≠ [])
      (htaken : FrameTaken clean ds r) : Receiving clean frame rest r

/-! The consumer's operations. -/

theorem queryRegs_statSum (c : Params) {i : Instr} (hi : i ≠ .stmean) (r : Regs 16 8) :
    (queryRegs c i r).statSum = r.statSum := by
  by_cases ha : i = .acq
  · rw [ha]; rfl
  · rw [queryRegs_eq_self ha hi]

theorem FrameTaken.queryRegs_keeps (h : FrameTaken clean ds r) {i : Instr} (hi : clean = true → i ≠ .stmean) :
    FrameTaken clean ds (queryRegs Config.current i r) := by
  obtain ⟨hstate, -, hpkt, hbyte, hbit, hmin, hmax, hcnt⟩ := queryRegs_acquisition Config.current i r
  exact
  { inv := h.inv.queryRegs_keeps i
    position := by rw [hbyte, hbit]; exact h.position
    state := by rw [hstate]; exact h.state
    bits := by rw [hpkt]; exact h.bits
    classes := fun b => (h.classes b).congr (by rw [hmin]) (by rw [hmax]) (by rw [hcnt])
      fun hc => by rw [queryRegs_statSum _ (hi hc)] }

theorem Receiving.queryRegs_keeps (h : Receiving clean frame rest r) {i : Instr} (hi : clean = true → i ≠ .stmean) :
    Receiving clean frame rest (queryRegs Config.current i r) := by
  cases h with
  | preamble hinv hs hhigh =>
    exact .preamble (hinv.queryRegs_keeps i) (by rwa [(queryRegs_acquisition Config.current i r).1]) hhigh
  | inFrame hsplit hne htaken => exact .inFrame hsplit hne (htaken.queryRegs_keeps hi)

/-! The producer's samples. -/

/-- Outside ACQUIRING no valid sample touches the flag (R114). -/
theorem acceptRegs_acquired (hb : (classify d).bit? = some b) (hs : r.state ≠ .acquiring)
    (h : acceptRegs Config.current d r = .ok r') : r'.acquired = r.acquired := by
  rw [← Except.ok.inj ((acceptRegs_search hb hs).symm.trans h)]
  exact Regs.search_acquired _

/-- The sync match takes the frame's first sample, a LOW one, as the cleared bit 7 of byte 0 (R108). -/
theorem frameTaken_syncMatch (q : Regs 16 8) (hd : classify d = .low) :
    FrameTaken clean [d] (q.syncMatch Config.current d false) := by
  have hrange : 52 ≤ d ∧ d ≤ 68 := (classifyAt_low (by decide)).mp hd
  have hbit : (classify d).bit? = some false := bit?_eq_false.mpr hd
  have hlow : ofClass false [d] = [d] := ofClass_concat_same hbit []
  have hhigh : ofClass true [d] = [] := ofClass_concat_other hbit []
  refine ⟨regsInv_syncMatch (c := Config.current) (by decide) q hrange, rfl, rfl, fun k j hj hlt => ?_, fun b => ?_⟩
  · obtain ⟨hk, rfl⟩ : k.val = 0 ∧ j = 0 := by simp at hlt; omega
    obtain rfl : k = 0 := Fin.ext hk
    simp [hd]
  · rw [Regs.syncMatch_low _ _ _ hrange.2 (by decide)]
    cases b with
    | false =>
      rw [hlow]
      constructor <;> simp <;> omega
    | true =>
      rw [hhigh]
      constructor <;> simp

/-- A sample is folded into the statistics of its own class, where nothing wraps (R7). -/
theorem ClassFolded.takeSample_own (h : ClassFolded clean ds r b) (hinv : RegsInv Config.current r)
    (hs : r.state = .acquiring) (hb : (classify d).bit? = some b) (i : Fin 5) :
    ClassFolded clean (ds ++ [d]) (r.takeSample i d b) b := by
  obtain ⟨-, htop⟩ := sample_in_class (c := Config.current) (by decide) hb
  obtain ⟨hsum, hcnt⟩ := RegsInv.fold_nowrap (c := Config.current) hinv (by decide) hs htop
  obtain ⟨hmin, hmax, -⟩ := Regs.takeSample_own i r (sample_lt_256 hb)
  exact
  { count := by
      rw [Regs.takeSample, Regs.advance_statCnt, List.length_append, ← h.count]
      exact hcnt
    min := by rw [hmin, h.min, List.foldl_concat]
    max := by rw [hmax, h.max, List.foldl_concat]
    sum := fun hc => by
      rw [Regs.takeSample, Regs.advance_statSum, List.sum_append, List.sum_singleton, ← h.sum hc]
      exact hsum }

/-- The other class's statistics stand. -/
theorem ClassFolded.takeSample_other (h : ClassFolded clean ds r (!b)) (i : Fin 5) :
    ClassFolded clean ds (r.takeSample i d b) (!b) := by
  obtain ⟨hmin, hmax, hsum, hcnt⟩ := r.takeSample_other (d := d) (b := b) i
  exact h.congr hmin hmax hcnt fun _ => hsum

/-- The bits of the packet after one more: those of the byte in progress move up by one place, the others stand (R111). -/
theorem FrameTaken.takeSample_bits (h : FrameTaken clean ds r) (hb : (classify d).bit? = some b) {i : Fin 5}
    (hi : i.val = r.byteIdx.toNat) (k : Fin 5) (j : Nat) (hj : j < 8) (hlt : 8 * k.val + j < ds.length + 1) :
    ((r.takeSample i d b).packet.read k).getLsbD (min 8 (ds.length + 1 - 8 * k.val) - 1 - j) =
      (classify ((ds ++ [d]).getD (8 * k.val + j) 0) == .high) := by
  have hpos := h.position
  have hbit := r.bitIdx.isLt
  have hold := h.bits k j hj
  rw [Regs.takeSample_read]
  by_cases hk : k = i
  · subst hk
    rw [if_pos rfl]
    by_cases hnew : 8 * k.val + j = ds.length
    · rw [show min 8 (ds.length + 1 - 8 * k.val) - 1 - j = 0 by omega, shiftIn_getLsbD_zero, hnew,
        List.getD_append_right _ _ _ _ le_rfl, Nat.sub_self]
      exact (classify_beq_high hb).symm
    · rw [show min 8 (ds.length + 1 - 8 * k.val) - 1 - j = min 8 (ds.length - 8 * k.val) - 1 - j + 1 by omega,
        shiftIn_getLsbD_succ _ _ (by omega), List.getD_append _ _ _ _ (by omega)]
      exact hold (by omega)
  · have hbefore : k.val < i.val := by
      have : k.val ≠ i.val := fun he => hk (Fin.ext he)
      omega
    rw [if_neg hk, List.getD_append _ _ _ _ (by omega),
      show min 8 (ds.length + 1 - 8 * k.val) = min 8 (ds.length - 8 * k.val) by omega]
    exact hold (by omega)

/-- The next sample of a frame goes on with it, and the fortieth sets the flag. -/
theorem FrameTaken.takeSample_keeps (h : FrameTaken clean ds r) (hlen : ds.length < 40)
    (hb : (classify d).bit? = some b) : ∃ r', acceptRegs Config.current d r = .ok r' ∧
      FrameTaken clean (ds ++ [d]) r' ∧ r'.acquired = (r.acquired || ds.length == 39) := by
  have hs : r.state = .acquiring := by rw [h.state, if_neg hlen.ne]
  obtain ⟨r', hok, hinv⟩ := RegsInv.acceptRegs_keeps (c := Config.current) h.inv (by decide) d
  obtain ⟨i, hi, rfl⟩ := acceptRegs_takeSample hb hs hok
  obtain ⟨hpos, hstate, hflag⟩ := r.takeSample_position (d := d) (b := b) hi hs
  rw [h.position] at hpos hstate hflag
  have hlength : (ds ++ [d]).length = ds.length + 1 := List.length_append
  refine ⟨_, hok, ⟨hinv, hlength ▸ hpos, ?_, ?_, fun k => ?_⟩, hflag⟩
  · rw [hstate, hlength]
    simp only [Nat.reduceEqDiff]
  · rw [hlength]
    exact h.takeSample_bits hb hi
  · by_cases hk : k = b
    · subst hk
      rw [ofClass_concat_same hb]
      exact (h.classes k).takeSample_own h.inv hs hb i
    · obtain rfl := Bool.eq_not.mpr hk
      rw [ofClass_concat_other hb]
      exact (h.classes (!b)).takeSample_other i

/-- The next sample of the preamble or the frame completes, and sets the flag exactly when it is the last. -/
theorem Receiving.acceptRegs_keeps (hf : IsFrame frame) (h : Receiving clean frame (d :: rest) r) :
    ∃ r', acceptRegs Config.current d r = .ok r' ∧ Receiving clean frame rest r' ∧
      r'.acquired = (r.acquired || rest.isEmpty) := by
  obtain ⟨hlength, hvalid, hfirst⟩ := hf
  generalize hto : d :: rest = coming at h
  cases h with
  | @preamble highs _ hinv hs hhigh =>
    have hne : rest.isEmpty = false := by
      have hlen := congrArg List.length hto
      rw [List.length_append, List.length_cons] at hlen
      rw [List.isEmpty_eq_false_iff, ← List.length_pos_iff]
      omega
    cases highs with
    | nil =>
      rw [List.nil_append] at hto
      subst hto
      have hlow : classify d = .low := Option.some.inj hfirst
      obtain ⟨q, -, -, hqh, hok⟩ := hinv.exists_search hs (bit?_eq_false.mpr hlow)
      rw [search_low_of_allOnes hqh] at hok
      refine ⟨_, hok, .inFrame (ds := [d]) rfl (by simp) (frameTaken_syncMatch _ hlow), ?_⟩
      rw [acceptRegs_acquired (bit?_eq_false.mpr hlow) hs hok, hne, Bool.or_false]
    | cons e highs =>
      obtain ⟨rfl, rfl⟩ := List.cons.inj hto
      have hbit := bit?_eq_true.mpr (hhigh d List.mem_cons_self)
      obtain ⟨q, hq, hqs, hqh, hok⟩ := hinv.exists_search hs hbit
      have hq' := RegsInv.search_keeps (c := Config.current) hq (by decide) hqs hqh hbit
      rw [search_high_of_allOnes hqh] at hok hq'
      refine ⟨_, hok, .preamble hq' (by simp [hqs]) fun x hx => hhigh x (List.mem_cons_of_mem _ hx), ?_⟩
      rw [acceptRegs_acquired hbit hs hok, hne, Bool.or_false]
  | @inFrame ds _ _ hsplit hne htaken =>
    subst hto
    obtain ⟨b, hb⟩ := exists_bit_of_valid (hvalid d (by simp [← hsplit]))
    have hcount : ds.length + (rest.length + 1) = 40 := by rw [← hlength, ← hsplit]; simp
    obtain ⟨r', hok, htaken', hflag⟩ := htaken.takeSample_keeps (by omega) hb
    refine ⟨r', hok, .inFrame (by simpa using hsplit) (by simp) htaken', ?_⟩
    have hlast : (ds.length == 39) = rest.isEmpty := by
      rw [Bool.eq_iff_iff, beq_iff_eq, List.isEmpty_iff_length_eq_zero]
      omega
    rw [hflag, hlast]

/-! Every operation, and every list of them. -/

/-- An operation of either client goes on with the frame; it sets the flag only with the frame's last sample. -/
theorem Receiving.exec_keeps (hf : IsFrame frame) {i : Instr} (hi : clean = true → i ≠ .stmean) {s : State}
    (h : Receiving clean frame (submitted [i] ++ rest) s.regs) :
    ∃ t, exec i s = .next t ∧ Receiving clean frame rest t.regs ∧
      (rest ≠ [] → s.regs.acquired = false → t.regs.acquired = false) := by
  cases hdur : i.duration? with
  | none =>
    obtain ⟨_, _, he⟩ := exec_query hdur s
    rw [submitted, List.filterMap_cons_none hdur] at h
    refine ⟨_, he, h.queryRegs_keeps hi, fun _ hold => ?_⟩
    exact Bool.eq_false_iff.mpr fun hnew => Bool.false_ne_true (hold.symm.trans (queryRegs_acquired _ i s.regs hnew))
  | some d =>
    obtain rfl := eq_accept_of_duration? hdur
    have hnext : Receiving clean frame (d :: rest) s.regs := h
    obtain ⟨r', hok, hrec, hflag⟩ := hnext.acceptRegs_keeps hf
    refine ⟨_, exec_accept_ok hok, hrec, fun hne hold => ?_⟩
    rw [State.Of.respond_regs, hflag, hold, List.isEmpty_eq_false_iff.mpr hne]
    rfl

theorem submitted_append (a b : List Instr) : submitted (a ++ b) = submitted a ++ submitted b := List.filterMap_append

theorem Receiving.runOps_keeps (hf : IsFrame frame) (ops : List Instr) (hops : clean = true → .stmean ∉ ops) {s : State}
    (h : Receiving clean frame (submitted ops ++ rest) s.regs) :
    ∃ t, runOps ops s = .next t ∧ Receiving clean frame rest t.regs := by
  induction ops generalizing s with
  | nil => exact ⟨s, rfl, h⟩
  | cons i is ih =>
    rw [← List.singleton_append, submitted_append, List.append_assoc] at h
    obtain ⟨t, he, ht, -⟩ := h.exec_keeps hf fun hc hi => hops hc (hi ▸ List.mem_cons_self)
    rw [runOps_cons he]
    exact ih (fun hc hmem => hops hc (List.mem_cons_of_mem _ hmem)) ht

/-- When nothing is still to come, the whole frame has been taken. -/
theorem Receiving.frameTaken (hf : IsFrame frame) (h : Receiving clean frame [] r) : FrameTaken clean frame r := by
  generalize hto : ([] : List Nat) = coming at h
  cases h with
  | preamble =>
    have hlength := hf.1
    rw [(List.append_eq_nil_iff.mp hto.symm).2] at hlength
    cases hlength
  | inFrame hsplit _ htaken =>
    rw [← hto, List.append_nil] at hsplit
    exact hsplit ▸ htaken

/-- A run that submits what is still to come ends with the whole frame taken. -/
theorem Receiving.frameTaken_of_run (hf : IsFrame frame) {ops : List Instr} (hops : clean = true → .stmean ∉ ops)
    {s t : State} (h : Receiving clean frame (submitted ops) s.regs) (hrun : runOps ops s = .next t) :
    FrameTaken clean frame t.regs := by
  rw [← List.append_nil (submitted ops)] at h
  obtain ⟨u, hu, hdone⟩ := h.runOps_keeps hf ops hops
  rw [← Host.Outcome.next.inj (hu.symm.trans hrun)]
  exact hdone.frameTaken hf

/-- When the whole frame is still to come, the block is outside ACQUIRING and meets the invariant. -/
theorem Receiving.outside (h : Receiving clean frame rest r) (hrest : rest = frame) :
    RegsInv Config.current r ∧ r.state ≠ .acquiring := by
  cases h with
  | preamble hinv hs _ => exact ⟨hinv, hs⟩
  | inFrame hsplit hne _ => exact absurd (List.append_left_eq_self.mp (hrest ▸ hsplit)) hne

/-- The sums are those of the frame's samples when no STMEAN comes after the preamble, whatever came with it. -/
theorem statSum_of_frame {s t : State} {pre : List Nat} (hinv : s.Inv) (hs : s.regs.state ≠ .acquiring)
    (hpre : ∀ d ∈ pre, classify d = .high) (hf : IsFrame frame) {before after : List Instr}
    (hbefore : submitted before = pre) (hafter : submitted after = frame) (hclean : .stmean ∉ after)
    (hrun : runOps (before ++ after) s = .next t) : (t.regs.statSum.get b).toNat = (ofClass b frame).sum := by
  have hstart : Receiving false frame (submitted before ++ frame) s.regs := hbefore ▸ .preamble hinv hs hpre
  obtain ⟨u, hu, hrec⟩ := hstart.runOps_keeps hf before fun h => absurd h Bool.false_ne_true
  obtain ⟨hinv', hs'⟩ := hrec.outside rfl
  have hfresh : Receiving true frame (submitted after) u.regs := hafter ▸ .preamble (highs := []) hinv' hs' nofun
  rw [runOps_append _ _ s hu] at hrun
  exact ((hfresh.frameTaken_of_run hf (fun _ => hclean) hrun).classes b).sum rfl

end Machine

end Sys2Proof
end

section
/-! The statement of 40_accept.md R117: a frame submitted after a preamble is received. -/

open Sys2Proof Sys2Proof.Machine

namespace Sys2Proof.Proofs.FrameReceived

/-- Settles O46: every operation keeps the account of the frame so far; the last sample makes it the account of the whole. The
sums are followed from the end of the preamble, where the account needs nothing of them. -/
theorem frameIsReceived : Obligations.FrameIsReceived := by
  intro s pre frame ops last hinv hs hpre hf hsub
  have hstart : Receiving false frame (pre ++ frame) s.regs := .preamble hinv hs hpre
  rw [← hsub] at hstart
  refine ⟨fun k hk => ?_, ?_⟩
  · rw [← List.take_append_drop k ops, List.append_assoc, submitted_append, List.drop_eq_getElem_cons hk] at hstart
    obtain ⟨u, hu, hrec⟩ := hstart.runOps_keeps hf _ fun h => absurd h Bool.false_ne_true
    rw [List.cons_append, ← List.singleton_append, submitted_append] at hrec
    obtain ⟨v, hv, -, hflag⟩ := hrec.exec_keeps hf fun h => absurd h Bool.false_ne_true
    refine ⟨u, v, hu, ?_, hflag (by simp [submitted, Instr.duration?])⟩
    rw [← List.take_concat_get' ops k hk, runOps_append _ _ s hu, runOps_cons hv]
    rfl
  · rw [submitted_append] at hstart
    obtain ⟨u, hu, hrec⟩ := hstart.runOps_keeps hf ops fun h => absurd h Bool.false_ne_true
    obtain ⟨r, hr, hdone, hflag⟩ := Receiving.acceptRegs_keeps (rest := []) hf hrec
    have hrun : runOps (ops ++ [.accept last]) s = .next (u.respond r 0 .ok) := by
      rw [runOps_append _ _ s hu, runOps_cons (exec_accept_ok hr)]
      rfl
    have htaken := hdone.frameTaken hf
    have hlength := hf.1
    refine ⟨_, hrun, hflag.trans (Bool.or_true _), htaken.state.trans (if_pos hlength), fun k j hk hj => ?_, fun b => ?_⟩
    · have hbits := htaken.bits ⟨k, hk⟩ j hj (by simp only; omega)
      rwa [hlength, show min 8 (40 - 8 * k) - 1 - j = 7 - j by omega] at hbits
    · obtain ⟨hcount, hmin, hmax, -⟩ := htaken.classes b
      refine ⟨hcount, hmin, hmax, fun before after hops hbefore hclean => ?_⟩
      subst hops hbefore
      rw [List.append_assoc] at hsub hrun
      rw [submitted_append, List.append_cancel_left_eq] at hsub
      exact statSum_of_frame hinv hs hpre hf rfl hsub (by simpa using hclean) hrun

end Sys2Proof.Proofs.FrameReceived
end

section
/-! SUPPORT. The acquired flag under every operation, the bytes of the packet word, and what the ACQs of a run answer
(41_handoff.md R130 to R132, 40_accept.md R113, R114). -/

namespace Sys2Proof.Machine

variable {sw cw : Nat}

/-! The acquired flag. -/

/-- The two flag words (30_encoding.md R85). -/
theorem flagWord_eq (b : Bool) : flagWord b = if b then 1#40 else 0#40 := by cases b <;> rfl

/-- Of the operations other than ACCEPT, ACQ clears the flag and no other one touches it. -/
theorem queryRegs_acquired_eq (c : Params) (i : Instr) (r : Regs sw cw) :
    (queryRegs c i r).acquired = if i = .acq then false else r.acquired := by
  by_cases ha : i = .acq
  · rw [if_pos ha, ha]; rfl
  · rw [if_neg ha]
    by_cases hm : i = .stmean
    · subst hm
      simp only [queryRegs]
      split
      · rw [Regs.storeMean_acquired, Regs.storeMean_acquired]
      · rfl
    · rw [queryRegs_eq_self ha hm]

theorem completesFrame_query {i : Instr} (h : i.duration? = none) (r : Regs sw cw) : completesFrame i r = false := by
  simp only [completesFrame, h]

theorem completesFrame_accept (d : Nat) (r : Regs sw cw) : completesFrame (.accept d) r = true ↔
    classify d ≠ .invalid ∧ r.state = .acquiring ∧ 8 * r.byteIdx.toNat + r.bitIdx.toNat = 39 := by
  have hbit := r.bitIdx.isLt
  have hlast : r.byteIdx = 4 ∧ r.bitIdx = 7 ↔ 8 * r.byteIdx.toNat + r.bitIdx.toNat = 39 := by
    rw [← BitVec.toNat_inj, ← BitVec.toNat_inj]
    simp
    omega
  simp only [completesFrame, Instr.duration?, Bool.and_eq_true, bne_iff_ne, beq_iff_eq, and_assoc, hlast]

/-- ACCEPT sets the flag with the fortieth bit and leaves it as it is otherwise (R113, R114). -/
theorem acceptRegs_acquired_eq {d : Nat} {r r' : Regs sw cw} (h : acceptRegs Config.current d r = .ok r') :
    r'.acquired = (r.acquired || completesFrame (.accept d) r) := by
  by_cases hval : classify d = .invalid
  · have hno := mt (completesFrame_accept d r).mp fun hc => hc.1 hval
    rw [← Except.ok.inj ((acceptRegs_invalid hval r).symm.trans h), Bool.eq_false_of_not_eq_true hno, Bool.or_false]
    rfl
  · obtain ⟨b, hb⟩ := exists_bit_of_valid hval
    by_cases hs : r.state = .acquiring
    · obtain ⟨i, hi, rfl⟩ := acceptRegs_takeSample hb hs h
      obtain ⟨-, -, hflag⟩ := r.takeSample_position (d := d) (b := b) hi hs
      have hlast : (8 * r.byteIdx.toNat + r.bitIdx.toNat == 39) = completesFrame (.accept d) r := by
        rw [Bool.eq_iff_iff, completesFrame_accept, beq_iff_eq]
        simp only [ne_eq, hval, not_false_eq_true, hs, true_and]
      rw [hflag, hlast]
    · have hno := mt (completesFrame_accept d r).mp fun hc => hs hc.2.1
      rw [← Except.ok.inj ((acceptRegs_search hb hs).symm.trans h), Bool.eq_false_of_not_eq_true hno, Bool.or_false]
      exact Regs.search_acquired _

/-- What every operation does to the flag: ACQ clears it, the completion of a frame sets it, nothing else touches it. -/
theorem exec_acquired {i : Instr} {s t : State} (h : exec i s = .next t) :
    t.regs.acquired = if i = .acq then false else s.regs.acquired || completesFrame i s.regs := by
  obtain ⟨r, d, st, rfl, ⟨hdur, rfl⟩ | ⟨e, rfl, hr⟩⟩ := exec_cases h
  · rw [State.Of.respond_regs, queryRegs_acquired_eq, completesFrame_query hdur, Bool.or_false]
  · rw [State.Of.respond_regs, if_neg nofun]
    exact acceptRegs_acquired_eq hr

/-! The packet word. -/

/-- Byte `i` of the packet is the `i`-th from the top of the result of PKT (R131). -/
theorem packetWord_extract (p : Packet) (i : Fin 5) : (packetWord p).extractLsb' (8 * (4 - i.val)) 8 = p.read i := by
  fin_cases i <;>
    simp (disch := omega) only [packetWord, Packet.read, BitVec.extractLsb'_append_eq_of_le,
      BitVec.extractLsb'_append_eq_of_add_le, BitVec.extractLsb'_eq_self, Nat.reduceSub, Nat.reduceMul]

/-! Runs, one operation at a time. -/

variable {i : Instr} {is ops : List Instr} {s t u : State}

theorem runOps_cons_cases (h : runOps (i :: is) s = .next t) : ∃ u, exec i s = .next u ∧ runOps is u = .next t := by
  unfold runOps at h
  split at h
  next u hu => exact ⟨u, hu, h⟩
  · cases h
  · cases h

theorem noCompletion_cons (h : exec i s = .next u) :
    noCompletion (i :: is) s = (!completesFrame i s.regs && noCompletion is u) := by simp only [noCompletion, h]

theorem acqAnswers_acq_cons (s : State) :
    acqAnswers (.acq :: is) s =
      flagWord s.regs.acquired :: acqAnswers is (s.respond s.regs.clearAcquired (flagWord s.regs.acquired) .ok) := rfl

theorem acqAnswers_cons (h : exec i s = .next u) (hi : i ≠ .acq) : acqAnswers (i :: is) s = acqAnswers is u := by
  simp only [acqAnswers, h, if_neg hi]

/-- The first operation of a run without a completion, and the run that is left: only an ACQ writes the flag. -/
theorem noCompletion_step (hno : noCompletion (i :: is) s = true) (h : runOps (i :: is) s = .next t) :
    ∃ u, exec i s = .next u ∧ noCompletion is u = true ∧ runOps is u = .next t ∧
      u.regs.acquired = if i = .acq then false else s.regs.acquired := by
  obtain ⟨u, hu, hrun⟩ := runOps_cons_cases h
  rw [noCompletion_cons hu, Bool.and_eq_true, Bool.not_eq_true'] at hno
  obtain ⟨hlast, hno⟩ := hno
  refine ⟨u, hu, hno, hrun, ?_⟩
  rw [exec_acquired hu, hlast, Bool.or_false]

/-- With the flag clear and no completion every ACQ answers 0 (R132). -/
theorem acqAnswers_of_clear (hno : noCompletion ops s = true) (h : runOps ops s = .next t)
    (hclear : s.regs.acquired = false) : acqAnswers ops s = List.replicate (ops.count .acq) 0#40 := by
  induction ops generalizing s with
  | nil => rfl
  | cons i is ih =>
    obtain ⟨u, hu, hno, hrun, hflag⟩ := noCompletion_step hno h
    have hrest := ih hno hrun (by rw [hflag, hclear, ite_self])
    by_cases hi : i = .acq
    · subst hi
      obtain rfl := Host.Outcome.next.inj hu
      rw [acqAnswers_acq_cons, hclear, List.count_cons_self, List.replicate_succ, ← hrest, hclear]
      rfl
    · rw [acqAnswers_cons hu hi, List.count_cons_of_ne hi, hrest]

/-- Without a completion the first ACQ answers the flag, and every later one 0 (R132). -/
theorem acqAnswers_of_noCompletion {n : Nat} (hno : noCompletion ops s = true) (h : runOps ops s = .next t)
    (hn : ops.count .acq = n + 1) : acqAnswers ops s = flagWord s.regs.acquired :: List.replicate n 0#40 := by
  induction ops generalizing s with
  | nil => cases hn
  | cons i is ih =>
    obtain ⟨u, hu, hno, hrun, hflag⟩ := noCompletion_step hno h
    by_cases hi : i = .acq
    · subst hi
      rw [List.count_cons_self, Nat.add_right_cancel_iff] at hn
      obtain rfl := Host.Outcome.next.inj hu
      rw [acqAnswers_acq_cons, ← hn]
      exact congrArg _ (acqAnswers_of_clear hno hrun hflag)
    · rw [List.count_cons_of_ne hi] at hn
      rw [if_neg hi] at hflag
      rw [acqAnswers_cons hu hi, ih hno hrun hn, hflag]

end Sys2Proof.Machine
end

section
/-! The statements of 41_handoff.md R131 and R132. -/

open Sys2Proof Sys2Proof.Machine

namespace Sys2Proof.Proofs.Handoff

/-- Settles O13: the completing operation is no ACQ and sets the flag; from there the flag is only ever cleared, by the first
ACQ. -/
theorem acqAnswersOncePerCompletion : Obligations.AcqAnswersOncePerCompletion := by
  refine ⟨fun i s t hlast h => ?_, fun ops s t n hno h hn => ?_⟩
  · have hi : i ≠ .acq := fun he => by subst he; cases hlast
    rw [exec_acquired h, if_neg hi, hlast, Bool.or_true]
  · rw [← flagWord_eq]
    exact acqAnswers_of_noCompletion hno h hn

/-- Settles O14: the packet word holds each byte of the packet in its place. -/
theorem pktReturnsTheWholePacket : Obligations.PktReturnsTheWholePacket := by
  refine ⟨by decide, fun s => ⟨packetWord s.regs.packet, rfl, ?_⟩⟩
  have hbyte := packetWord_extract s.regs.packet
  exact ⟨hbyte 0, hbyte 1, hbyte 2, hbyte 3, hbyte 4⟩

end Sys2Proof.Proofs.Handoff
end

section
/-! SUPPORT. The word that STMIN and STMAX answer with, and what STMEAN's answer depends on (42_stats.md R140 to R144). -/

namespace Sys2Proof.Machine

/-- The pair of bytes as a number (30_encoding.md R85). -/
theorem bytePairWord_eq_ofNat (a : PerClass Byte) :
    bytePairWord a = BitVec.ofNat 40 (a.class1.toNat * 256 + a.class0.toNat) := by
  have happend : (a.class1 ++ a.class0 : BitVec 16).toNat = a.class1.toNat * 256 + a.class0.toNat := by
    rw [BitVec.toNat_append, ← Nat.shiftLeft_add_eq_or_of_lt a.class0.isLt, Nat.shiftLeft_eq]
  rw [bytePairWord, ← happend, BitVec.ofNat_toNat]

/-- Class 1 is the higher byte of the pair (R140, R141). -/
theorem bytePairWord_class1 (a : PerClass Byte) : (bytePairWord a).extractLsb' 8 8 = a.class1 := by
  have h1 := a.class1.isLt
  have h0 := a.class0.isLt
  apply BitVec.eq_of_toNat_eq
  rw [bytePairWord_eq_ofNat, BitVec.extractLsb'_toNat, BitVec.toNat_ofNat, Nat.shiftRight_eq_div_pow]
  omega

/-- STMEAN's data and status depend on the registers alone; the parameters decide only what it writes (R142, R144). -/
theorem execStmeanAt_answer {sw cw : Nat} (r : Regs sw cw) : ∃ (d : ResultWord) (st : Status),
    ∀ (c : Params) (s : State.Of sw cw), s.regs = r → execStmeanAt c s = .next (s.respond (queryRegs c .stmean r) d st) :=
  ⟨meanWord (r.mean? true) (r.mean? false), if (r.mean? true).isNone || (r.mean? false).isNone then .div0 else .ok,
    by rintro c s rfl; rfl⟩

/-- The pure form of STMEAN leaves the registers as they are (R144). -/
theorem queryRegs_pure_stmean {sw cw : Nat} {c : Params} (hpure : c.meanMutates = false) (r : Regs sw cw) :
    queryRegs c .stmean r = r := by
  simp [queryRegs, hpure]

end Sys2Proof.Machine
end

section
/-! The statements of 42_stats.md R140, R141, R144 and R145. -/

open Sys2Proof Sys2Proof.Machine

namespace Sys2Proof.Proofs.Statistics

/-- Settles O15: the word is the pair of minima, and the invariant gives class 1's minimum while it has no sample. -/
theorem stminReturnsMinima : Obligations.StminReturnsMinima := by
  refine ⟨by decide, fun s => ?_, fun s t hinv h0 h1 hexec => ?_⟩
  · rw [← bytePairWord_eq_ofNat]; rfl
  · obtain rfl := Host.Outcome.next.inj hexec
    obtain ⟨hmin, -, -⟩ := hinv.unseen_high h0 (by rw [h1]; rfl)
    exact (bytePairWord_class1 s.regs.statMin).trans (BitVec.eq_of_toNat_eq hmin)

/-- Settles O16: the word is the pair of maxima, and the invariant gives class 1's maximum while it has no sample. -/
theorem stmaxReturnsMaxima : Obligations.StmaxReturnsMaxima := by
  refine ⟨by decide, fun s => ?_, fun s t hinv h0 h1 hexec => ?_⟩
  · rw [← bytePairWord_eq_ofNat]; rfl
  · obtain rfl := Host.Outcome.next.inj hexec
    obtain ⟨-, hmax, -⟩ := hinv.unseen_high h0 (by rw [h1]; rfl)
    exact (bytePairWord_class1 s.regs.statMax).trans (BitVec.eq_of_toNat_eq hmax)

/-- Settles O19: all three runs read the same registers, so they answer the same, and the pure form writes none. -/
theorem pureStmeanWritesNothing : Obligations.PureStmeanWritesNothing := by
  refine ⟨rfl, fun c s hpure => ?_⟩
  obtain ⟨d, st, hanswer⟩ := execStmeanAt_answer s.regs
  have hkeep (u : State.At c) (hu : u.regs = s.regs) : execStmeanAt c u = .next (u.respond s.regs d st) := by
    rw [hanswer c u hu, queryRegs_pure_stmean hpure]
  exact ⟨d, st.code, hkeep s rfl, hkeep { s with rData := d, rStatus := st.code } rfl,
    _, hanswer { c with meanMutates := true } s rfl, rfl, rfl⟩

/-- Settles O45: the invariant's clauses on each class's statistics, at every reachable state. -/
theorem statisticsStayInRange : Obligations.StatisticsStayInRange := by
  intro c s hc hreach h0
  have hclass := (hreach.regsInv hc).classInv h0
  refine ⟨(hclass false).range h0, (hclass true).range, fun h1 => ?_⟩
  obtain ⟨hmin, hmax, -⟩ := (hclass true).unseen h1
  exact ⟨hmin, hmax⟩

end Sys2Proof.Proofs.Statistics
end

section
/-! SUPPORT. The CRC of a byte as a linear map over GF(2) that loses nothing of the register or of the byte, and one step of it
as multiplication by x (43_crc.md R150, R152). -/

namespace Sys2Proof

/-! One step. -/

theorem and_topBit (x : Byte) : x &&& 0x80#8 = if x.msb then 0x80#8 else 0#8 := by
  rw [BitVec.msb_eq_getLsbD_last]
  exact BitVec.and_twoPow x 7

/-- A step shifts the register and adds the feedback constant when the two top bits differ (R150). -/
theorem crcStep_eq (crc byte : Byte) :
    crcStep crc byte = crc <<< 1 ^^^ if crc.msb ^^ byte.msb then Config.crcPoly else 0#8 := by
  rw [crcStep, and_topBit, BitVec.msb_xor]
  cases crc.msb ^^ byte.msb <;> simp

theorem crcStep_xor (crc crc' byte byte' : Byte) :
    crcStep (crc ^^^ crc') (byte ^^^ byte') = crcStep crc byte ^^^ crcStep crc' byte' := by
  have hfeedback (p q : Bool) : (if p ^^ q then Config.crcPoly else 0#8) =
      (if p then Config.crcPoly else 0#8) ^^^ if q then Config.crcPoly else 0#8 := by
    cases p <;> cases q <;> decide
  simp only [crcStep_eq, BitVec.shiftLeft_xor_distrib, BitVec.msb_xor, hfeedback]
  ac_rfl

/-- Adding the byte to the register first leaves only the byte's own shift to be taken off again. -/
theorem crcStep_xor_zero (crc byte : Byte) : crcStep (crc ^^^ byte) 0#8 = crcStep crc byte ^^^ byte <<< 1 := by
  simp only [crcStep_eq, BitVec.shiftLeft_xor_distrib, BitVec.msb_xor, BitVec.msb_zero, Bool.xor_false]
  ac_rfl

/-- A data bit enters at x^7 and leaves with the shift (R152). -/
theorem crcStep_eq_crcStep_zero (crc byte : Byte) : crcStep crc byte = crcStep (crc ^^^ (byte &&& 0x80#8)) 0#8 := by
  have hshift : (byte &&& 0x80#8) <<< 1 = 0#8 := by
    rw [and_topBit]; cases byte.msb <;> decide
  have hmsb : (byte &&& 0x80#8).msb = byte.msb := by
    rw [and_topBit]; cases byte.msb <;> decide
  simp [crcStep_eq, BitVec.shiftLeft_xor_distrib, hshift, hmsb]

/-- On nine bits the modulus 0x131 clears bit 8 and adds the feedback constant below it. -/
theorem xor_modulus {n : Nat} (hlow : 256 ≤ n) (hhigh : n < 512) : n ^^^ 0x131 = n % 256 ^^^ 0x31 := by
  have hdiv : (n ^^^ 0x131) / 256 = 0 := by
    rw [Nat.xor_div_two_pow (n := 8), show n / 2 ^ 8 = 1 by omega]
    decide
  have hmod : (n ^^^ 0x131) % 256 = n % 256 ^^^ 0x31 := Nat.xor_mod_two_pow (n := 8)
  omega

/-- A step without a data bit multiplies by x modulo x^8 + x^5 + x^4 + 1 (R152). -/
theorem crcStep_zero_toNat (y : Byte) :
    (crcStep y 0#8).toNat = if 256 ≤ 2 * y.toNat then (2 * y.toNat) ^^^ 0x131 else 2 * y.toNat := by
  have hlt := y.isLt
  have hshift : (y <<< 1).toNat = 2 * y.toNat % 256 := by
    rw [BitVec.toNat_shiftLeft, Nat.shiftLeft_eq, Nat.mul_comm, Nat.pow_one]
  have hmsb : y.msb = decide (256 ≤ 2 * y.toNat) := by
    rw [BitVec.msb_eq_decide, decide_eq_decide]
    omega
  rw [crcStep_eq, BitVec.msb_zero, Bool.xor_false, hmsb, BitVec.toNat_xor, hshift]
  by_cases hleaves : 256 ≤ 2 * y.toNat
  · simp [hleaves, xor_modulus hleaves (by omega), Config.crcPoly]
  · simp [hleaves, Nat.mod_eq_of_lt (Nat.lt_of_not_le hleaves)]

/-- The modulus is odd and a product by x even, so only 0 steps to 0. -/
theorem eq_zero_of_crcStep_eq_zero {crc : Byte} (h : crcStep crc 0#8 = 0#8) : crc = 0#8 := by
  have hprod := (crcStep_zero_toNat crc).symm.trans (congrArg BitVec.toNat h)
  apply BitVec.eq_of_toNat_eq
  split at hprod
  · have := Nat.xor_eq_zero_iff.mp hprod
    omega
  · simpa using hprod

theorem crcStep_inj_crc {crc crc' byte : Byte} : crcStep crc byte = crcStep crc' byte ↔ crc = crc' := by
  refine ⟨fun h => BitVec.xor_eq_zero_iff.mp (eq_zero_of_crcStep_eq_zero ?_), fun h => h ▸ rfl⟩
  calc crcStep (crc ^^^ crc') 0#8
      _ = crcStep (crc ^^^ crc') (byte ^^^ byte) := by rw [BitVec.xor_self]
      _ = crcStep crc byte ^^^ crcStep crc' byte := crcStep_xor ..
      _ = 0#8 := by rw [h, BitVec.xor_self]

/-! The steps of a byte. -/

theorem crcSteps_xor (k : Nat) (crc crc' byte byte' : Byte) :
    crcSteps k (crc ^^^ crc') (byte ^^^ byte') = crcSteps k crc byte ^^^ crcSteps k crc' byte' := by
  induction k generalizing crc crc' byte byte' with
  | zero => rfl
  | succ k ih => rw [crcSteps, crcStep_xor, BitVec.shiftLeft_xor_distrib, ih, crcSteps, crcSteps]

@[simp] theorem crcSteps_inj_crc (k : Nat) {crc crc' byte : Byte} :
    crcSteps k crc byte = crcSteps k crc' byte ↔ crc = crc' := by
  induction k generalizing crc crc' byte with
  | zero => rfl
  | succ k ih => exact ih.trans crcStep_inj_crc

theorem crcSteps_xor_zero (k : Nat) (crc byte : Byte) :
    crcSteps k (crc ^^^ byte) 0#8 = crcSteps k crc byte ^^^ byte <<< k := by
  induction k generalizing crc byte with
  | zero => rw [BitVec.shiftLeft_zero]; rfl
  | succ k ih => rw [crcSteps, crcStep_xor_zero, BitVec.zero_shiftLeft, ih, crcSteps, Nat.add_comm, BitVec.shiftLeft_add]

/-- After its eight steps a byte has left the shift, and the register holds what it would had the byte been added first. -/
theorem crcSteps_eight (crc byte : Byte) : crcSteps 8 crc byte = crcSteps 8 (crc ^^^ byte) 0#8 := by
  rw [crcSteps_xor_zero, BitVec.shiftLeft_eq_zero le_rfl, BitVec.xor_zero]

@[simp] theorem crcSteps_inj_byte {crc byte byte' : Byte} : crcSteps 8 crc byte = crcSteps 8 crc byte' ↔ byte = byte' := by
  rw [crcSteps_eight crc byte, crcSteps_eight crc byte', crcSteps_inj_crc, BitVec.xor_right_inj]

/-! An inverted bit. -/

theorem xor_bit_ne {k : Nat} (hk : k < 8) (x : Byte) : x ^^^ 1#8 <<< k ≠ x := by
  have hbit : ∀ k < 8, 1#8 <<< k ≠ 0#8 := by decide
  intro h
  exact hbit k hk ((BitVec.xor_right_inj x).mp (h.trans BitVec.xor_zero.symm))

end Sys2Proof

namespace Sys2Proof.Machine

/-- VALID answers 0 when byte 4 is not the checksum (R151). -/
theorem execValidAt_rData {sw cw : Nat} {c : Params} {s t : State.Of sw cw} (h : execValidAt c s = .next t) :
    t.rData = flagWord (checksumHolds c s.regs.packet) := by
  obtain rfl := Host.Outcome.next.inj h
  rfl

end Sys2Proof.Machine
end

section
/-! The statements of 43_crc.md R152. -/

open Sys2Proof Sys2Proof.Machine

namespace Sys2Proof.Proofs.Checksum

/-- Settles O23: the steps of a byte are linear, and injective in the register and in the byte. -/
theorem crcDetectsSingleBitErrors : Obligations.CrcDetectsSingleBitErrors := by
  refine ⟨fun a0 a1 a2 a3 b0 b1 b2 b3 => ?linear, fun n b0 b1 b2 b3 k hk => ?inverted, fun c s t k hk hsum hexec => ?valid,
    fun crc byte => ?step⟩
  case linear => simp only [crc8From, ← crcSteps_xor, BitVec.xor_zero]
  case inverted => simp [crc8From, xor_bit_ne hk]
  case valid =>
    have hne : checksumHolds c s.regs.packet = false := by
      simpa [checksumHolds, ← hsum] using (xor_bit_ne hk _).symm
    rw [execValidAt_rData hexec, hne]
    rfl
  case step => rw [crcStep_eq_crcStep_zero, crcStep_zero_toNat]

end Sys2Proof.Proofs.Checksum
end

section
/-! SUPPORT. The fields of a packet as numbers, and the result words of TEMP and TEMPTXT (44_fields.md R160 to R163). -/

namespace Sys2Proof.Packet

variable (p : Packet)

/-- The id is byte 0 above the high nibble of byte 1 (R160). -/
theorem sensorId_toNat : p.sensorId.toNat = p.b0.toNat * 16 + p.b1.toNat / 16 := by
  have h0 := p.b0.isLt
  have h1 := p.b1.isLt
  have hhigh : (p.b0.setWidth 12 <<< 4).toNat = p.b0.toNat <<< 4 := by
    rw [BitVec.toNat_shiftLeft, BitVec.toNat_setWidth, Nat.shiftLeft_eq, Nat.shiftLeft_eq]
    omega
  have hlow : ((p.b1 >>> 4).setWidth 12).toNat = p.b1.toNat / 16 := by
    rw [BitVec.toNat_setWidth, BitVec.toNat_ushiftRight, Nat.shiftRight_eq_div_pow]
    omega
  rw [sensorId, BitVec.toNat_or, read_0, read_1, hhigh, hlow, ← Nat.shiftLeft_add_eq_or_of_lt (by omega), Nat.shiftLeft_eq]

/-- The magnitude is the low three bits of byte 1 above byte 2 (R162). -/
theorem magnitude_toNat : p.magnitude.toNat = p.b1.toNat % 8 * 256 + p.b2.toNat := by
  have h2 := p.b2.isLt
  have hmask : (p.b1 &&& 0x07#8).toNat = p.b1.toNat % 8 := Nat.and_two_pow_sub_one_eq_mod _ 3
  have hhigh : ((p.b1 &&& 0x07#8).setWidth 11 <<< 8).toNat = (p.b1.toNat % 8) <<< 8 := by
    rw [BitVec.toNat_shiftLeft, BitVec.toNat_setWidth, hmask, Nat.shiftLeft_eq, Nat.shiftLeft_eq]
    omega
  have hlow : (p.b2.setWidth 11).toNat = p.b2.toNat := by
    rw [BitVec.toNat_setWidth]
    omega
  rw [magnitude, BitVec.toNat_or, read_1, read_2, hhigh, hlow, ← Nat.shiftLeft_add_eq_or_of_lt h2, Nat.shiftLeft_eq]

theorem negative_eq_getLsbD : p.negative = p.b1.getLsbD 3 := by
  have hbit : p.b1 &&& 0x08#8 = if p.b1.getLsbD 3 then 0x08#8 else 0#8 := BitVec.and_twoPow p.b1 3
  rw [negative, read_1, hbit]
  cases p.b1.getLsbD 3 <;> rfl

theorem negative_toNat : p.negative.toNat = p.b1.toNat / 8 % 2 := by
  rw [negative_eq_getLsbD]
  exact Nat.toNat_testBit p.b1.toNat 3

/-- The sign of the magnitude by arithmetic on byte 1 (R162). -/
theorem temperature_eq : p.temperature =
    if p.b1.toNat / 8 % 2 = 1 then -(p.magnitude.toNat : Int) else p.magnitude.toNat := by
  simp only [temperature, ← negative_toNat, Bool.toNat_eq_one]

theorem temperature_bounds : -2047 ≤ p.temperature ∧ p.temperature ≤ 2047 := by
  have hmag := p.magnitude.isLt
  unfold temperature
  split <;> omega

end Sys2Proof.Packet

namespace Sys2Proof.Machine

/-- Two's complement in 16 bits is the remainder modulo 65536 (R162). -/
theorem temperatureWord_eq_ofNat (t : Int) : temperatureWord t = BitVec.ofNat 40 (t % 65536).toNat := by
  rw [temperatureWord, ← BitVec.ofNat_toNat, BitVec.toNat_ofInt]
  rfl

/-- A whole part of 8 bits and a fraction digit of 4 stand side by side (R163). -/
theorem textWord_eq_ofNat (sign : Bool) {whole fraction : Nat} (hw : whole < 256) (hf : fraction < 16) :
    textWord sign whole fraction = BitVec.ofNat 40 (sign.toNat * 4096 + whole * 16 + fraction) := by
  have happend : (BitVec.ofBool sign ++ BitVec.ofNat 8 whole ++ BitVec.ofNat 4 fraction : BitVec 13).toNat =
      sign.toNat * 4096 + whole * 16 + fraction := by
    rw [BitVec.toNat_append, BitVec.toNat_append, ← Nat.shiftLeft_add_eq_or_of_lt (BitVec.isLt _),
      ← Nat.shiftLeft_add_eq_or_of_lt (BitVec.isLt _), BitVec.toNat_ofBool, BitVec.toNat_ofNat, BitVec.toNat_ofNat,
      Nat.mod_eq_of_lt hw, Nat.mod_eq_of_lt hf, Nat.shiftLeft_eq, Nat.shiftLeft_eq]
    omega
  rw [textWord, ← happend, BitVec.ofNat_toNat]

end Sys2Proof.Machine
end

section
/-! The statements of 44_fields.md R160 to R163. -/

open Sys2Proof Sys2Proof.Machine

namespace Sys2Proof.Proofs.Fields

/-- Settles O24: the id is a number of 12 bits, and 11 once the invariant bounds byte 0. -/
theorem idReturnsTheSensorId : Obligations.IdReturnsTheSensorId := by
  refine ⟨by decide, fun s => ?_, fun s t hinv hseen hexec => ?_⟩
  · rw [← Packet.sensorId_toNat, BitVec.ofNat_toNat]; rfl
  · obtain rfl := Host.Outcome.next.inj hexec
    have hsync := hseen.elim hinv.acquired_synced id
    have hid := Packet.sensorId_lt (hinv.synced_sign hsync)
    rw [State.Of.respond_rData, BitVec.toNat_setWidth, Nat.mod_eq_of_lt (by omega)]
    exact Nat.le_of_lt_succ hid

/-- Settles O25: a byte in 40 bits is its number. -/
theorem humReturnsTheRawByte : Obligations.HumReturnsTheRawByte := by
  refine ⟨by decide, fun s => ?_⟩
  rw [BitVec.ofNat_toNat]; rfl

/-- Settles O26: the packet's temperature is the statement's number, and the result word is that number modulo 65536. -/
theorem tempReturnsSignedTenths : Obligations.TempReturnsSignedTenths := by
  refine ⟨by decide, fun s => ?_⟩
  dsimp only
  rw [← Packet.magnitude_toNat, ← Packet.temperature_eq, ← temperatureWord_eq_ofNat]
  exact ⟨rfl, s.regs.packet.temperature_bounds⟩

/-- Settles O27: the whole part and the fraction digit fit their fields, so the word is their sum. -/
theorem temptxtReturnsTheParts : Obligations.TemptxtReturnsTheParts := by
  refine ⟨by decide, fun s => ?_⟩
  have hmag := s.regs.packet.magnitude.isLt
  dsimp only
  rw [← Packet.magnitude_toNat, ← Packet.negative_toNat]
  refine ⟨?_, by omega, by omega⟩
  rw [← textWord_eq_ofNat _ (by omega) (by omega)]
  rfl

end Sys2Proof.Proofs.Fields
end

section
/-! SUPPORT. What NOP and a cycle without an operation answer (45_system.md R170). -/

namespace Sys2Proof.Machine

/-- NOP answers at once, with the registers as they are (R170). -/
theorem exec_nop (s : State) : exec .nop s = .next (s.respond s.regs 0 .ok) := rfl

theorem State.Of.nextCycle_cons {sw cw : Nat} {s : State.Of sw cw} {k : Cycle} {rest : List Cycle}
    (h : s.inputs = k :: rest) : s.nextCycle = (k, { s with inputs := rest }) := by
  unfold State.Of.nextCycle
  rw [h]

/-- A cycle with `rst = 0` and `op_valid = 0` is a NOP, whatever `op` holds (R170). -/
theorem step_idle {s : State} {w : OpWord} {rest : List Cycle} (h : s.inputs = ⟨false, false, w⟩ :: rest) :
    step s = exec .nop { s with inputs := rest } := by
  unfold step
  rw [State.Of.nextCycle_cons h]
  rfl

/-- Any number of NOPs completes and leaves the registers alone (R170). -/
theorem runOps_replicate_nop (n : Nat) (s : State) :
    ∃ t, runOps (List.replicate n .nop) s = .next t ∧ t.regs = s.regs := by
  induction n generalizing s with
  | zero => exact ⟨s, rfl, rfl⟩
  | succ n ih =>
    obtain ⟨t, hrun, hregs⟩ := ih (s.respond s.regs 0 .ok)
    exact ⟨t, by rw [List.replicate_succ, runOps_cons (exec_nop s), hrun], hregs⟩

end Sys2Proof.Machine
end

section
/-! The statement of 45_system.md R170. -/

open Sys2Proof Sys2Proof.Machine

namespace Sys2Proof.Proofs.System

/-- Settles O11: a cycle without an operation runs a NOP, which answers with the registers as they are; many NOPs by induction
on their number. -/
theorem nopDoesNothing : Obligations.NopDoesNothing :=
  ⟨by decide, exec_nop, fun _ _ _ hidle => (step_idle hidle).trans (exec_nop _), runOps_replicate_nop⟩

end Sys2Proof.Proofs.System
end

section
/-! SUPPORT. INVALID samples: the first one resets the synchronization, and every later one finds it reset already
(60_exceptions.md R186). -/

namespace Sys2Proof.Machine

variable {sw cw : Nat}

@[simp] theorem Regs.syncReset_syncReset (r : Regs sw cw) : r.syncReset.syncReset = r.syncReset := rfl

/-- Of two answers in a row the port shows the later one. -/
@[simp] theorem State.Of.respond_respond (s : State.Of sw cw) (r r' : Regs sw cw) (data data' : ResultWord)
    (st st' : Status) : (s.respond r data st).respond r' data' st' = s.respond r' data' st' := rfl

theorem exec_accept_invalid {d : Nat} (h : classify d = .invalid) (s : State) :
    exec (.accept d) s = .next (s.respond s.regs.syncReset 0 .ok) :=
  exec_accept_ok (acceptRegs_invalid h s.regs)

/-- Resets do not nest, count or accumulate (R186). -/
theorem runOps_invalid_after_reset {ds : List Nat} (h : ∀ e ∈ ds, classify e = .invalid) (s : State) :
    runOps (ds.map .accept) (s.respond s.regs.syncReset 0 .ok) = .next (s.respond s.regs.syncReset 0 .ok) := by
  induction ds with
  | nil => rfl
  | cons e es ih =>
    obtain ⟨he, hes⟩ := List.forall_mem_cons.mp h
    rw [List.map_cons, runOps_cons (exec_accept_invalid he _), State.Of.respond_regs, Regs.syncReset_syncReset,
      State.Of.respond_respond]
    exact ih hes

end Sys2Proof.Machine
end

section
/-! The statement of 60_exceptions.md R186. -/

open Sys2Proof Sys2Proof.Machine

namespace Sys2Proof.Proofs.Exceptions

/-- Settles O32: the first sample of the run resets, and the state it leaves is a fixed point of all the others. -/
theorem invalidRunsActAsOne : Obligations.InvalidRunsActAsOne := by
  intro ds d s hne hds hd
  refine ⟨?_, Accept.invalidSampleOnlyResets d s hd⟩
  obtain ⟨e, es, rfl⟩ := List.exists_cons_of_ne_nil hne
  obtain ⟨he, hes⟩ := List.forall_mem_cons.mp hds
  rw [List.map_cons, runOps_cons (exec_accept_invalid he s), runOps_invalid_after_reset hes, exec_accept_invalid hd]

end Sys2Proof.Proofs.Exceptions
end

section
/-! SUPPORT. Durations beyond LO_MAX, the highest threshold, and the saturated measurement (70_reset_and_hazards.md R210). -/

namespace Sys2Proof

open Machine

/-- LO_MAX tops both ranges, so no duration above it is a bit (00_scope.md R6, 40_accept.md R101). -/
theorem classifyAt_of_loMax_lt {c : Params} {d : Nat} (hc : c.Admissible) (h : c.loMax < d) : classifyAt c d = .invalid := by
  have hhi : c.hiMax ≤ c.loMax := classMax_le_loMax hc true
  exact classifyAt_invalid.mpr ⟨by omega, by omega⟩

/-- No bit is as long as the operand's largest value (00_scope.md R6). -/
theorem Params.Admissible.loMax_lt_top {c : Params} (hc : c.Admissible) : c.loMax < 2 ^ c.dw - 1 := by
  obtain ⟨-, -, -, htop, -⟩ := hc
  exact htop

theorem saturate_of_fits {dw m : Nat} (h : m ≤ 2 ^ dw - 1) : saturate dw m = m := Nat.min_eq_left h

theorem saturate_of_beyond {dw m : Nat} (h : 2 ^ dw - 1 < m) : saturate dw m = 2 ^ dw - 1 := Nat.min_eq_right h.le

theorem saturate_lt (dw m : Nat) : saturate dw m < 2 ^ dw :=
  (Nat.min_le_right m _).trans_lt (Nat.sub_one_lt_of_lt (Nat.two_pow_pos dw))

/-- Saturation changes only a measurement beyond the operand, which is INVALID before and after. -/
theorem classifyAt_saturate {c : Params} (hc : c.Admissible) (m : Nat) :
    classifyAt c (saturate c.dw m) = classifyAt c m := by
  have htop : c.loMax < 2 ^ c.dw - 1 := Params.Admissible.loMax_lt_top hc
  rcases le_or_gt m (2 ^ c.dw - 1) with hfits | hbeyond
  · rw [saturate_of_fits hfits]
  · rw [saturate_of_beyond hbeyond, classifyAt_of_loMax_lt hc htop, classifyAt_of_loMax_lt hc (htop.trans hbeyond)]

end Sys2Proof
end

section
/-! The statement of 70_reset_and_hazards.md R210. -/

open Sys2Proof Sys2Proof.Machine

namespace Sys2Proof.Proofs.Hazards

/-- Settles O52: a measurement beyond the operand is above LO_MAX, and everything above LO_MAX is INVALID. -/
theorem saturationKeepsTheClass : Obligations.SaturationKeepsTheClass := by
  refine ⟨fun c m hc => ⟨classifyAt_saturate hc m, saturate_lt c.dw m, fun hbeyond v hv => ?_⟩, by decide, by decide⟩
  have hm : c.loMax < m := (Params.Admissible.loMax_lt_top hc).trans hbeyond
  rw [classifyAt_of_loMax_lt hc hv, classifyAt_of_loMax_lt hc hm]

end Sys2Proof.Proofs.Hazards
end

section
/-! The statements about the invariant of the registers: reset establishes it and every clock cycle keeps it (10_state.md R32 to
R34, 00_scope.md R7). -/

open Sys2Proof Sys2Proof.Machine

namespace Sys2Proof.Proofs.Invariant

/-- Settles O56: a clock cycle is a reset or one operation, and each keeps the invariant. -/
theorem stepKeepsTheInvariantForAllParameters : Obligations.StepKeepsTheInvariantForAllParameters :=
  fun _ _ hc hinv => hinv.stepAt_keeps hc

/-- Settles O40: the machine is the block at the default parameters, which are admissible. -/
theorem stepKeepsTheInvariant : Obligations.StepKeepsTheInvariant := by
  intro s hinv
  rw [step_eq_stepAt]
  exact RegsInv.stepAt_keeps (c := Config.current) hinv (by decide)

/-- Settles O41: an INVALID sample resets, a search matches only on a LOW sample, and in ACQUIRING the bit goes into the byte in
progress. -/
theorem acceptKeepsTheInvariantForAllThresholds : Obligations.AcceptKeepsTheInvariantForAllThresholds :=
  fun _ d _ hc hinv => hinv.acceptRegs_keeps hc d

/-- Settles O39: after reset no frame is in progress and none has been counted; the named state is one of these. -/
theorem resetMeetsTheInvariant : Obligations.ResetMeetsTheInvariant :=
  ⟨fun c u => regsInv_resetRegs c u, regsInv_resetRegs Config.current default⟩

/-- Settles O37: at most 39 samples have been folded and bits taken, so one more of each still fits. -/
theorem nothingWraps : Obligations.NothingWraps := by
  intro c r d b hc hinv hs hb
  obtain ⟨-, hhigh⟩ := sample_in_class hc hb
  obtain ⟨hsum, hcnt⟩ := hinv.fold_nowrap hc hs hhigh
  have hlimit := hinv.position_le hs
  have hcount := hinv.acquiring_count hs
  have hone := statCnt_get_le r b
  have hcnt40 : (r.statCnt.get b).toNat + 1 ≤ 40 := by omega
  have htotal : (r.statSum.get b).toNat + d ≤ 40 * c.loMax := calc
    _ ≤ (r.statCnt.get b).toNat * classMax c b + classMax c b :=
      Nat.add_le_add (hinv.classInv (hinv.acquiring_started hs) b).sum_le hhigh
    _ = ((r.statCnt.get b).toNat + 1) * classMax c b := (Nat.succ_mul _ _).symm
    _ ≤ 40 * c.loMax := Nat.mul_le_mul hcnt40 (classMax_le_loMax hc b)
  refine ⟨hsum, hcnt, htotal, hcnt40, fun i hi => (hinv.acquiring_current hs i hi).trans_le ?_⟩
  exact (Nat.pow_le_pow_right (by omega) (Nat.le_of_lt_succ r.bitIdx.isLt) : _ ≤ 2 ^ 7)

end Sys2Proof.Proofs.Invariant
end

section
/-! SUPPORT. What a legal word decodes to, and every instruction as a row of the operation map (30_encoding.md R82, R83). -/

namespace Sys2Proof

/-- A word of an operation without an operand decodes to it. -/
theorem decodeAt_plain {n : Nat} {i : Instr} (hi : plainOperation n = some i) (dw : Nat) {w : OpWord}
    (hw : w.toNat = 4096 * n) : decodeAt dw w = i := by
  have hcode : w.toNat / 4096 = n := by omega
  have hlow : w.toNat % 4096 = 0 := by omega
  simp [decodeAt, decodeLegalAt, opcField_eq, lowField_eq, hcode, hlow, hi, ne_one_of_plainOperation hi]

/-- A word of ACCEPT decodes to its duration field. -/
theorem decodeAt_accept {dw : Nat} (h1 : 1 ≤ dw) (h12 : dw ≤ 12) {w : OpWord} (hcode : w.toNat / 4096 = 1)
    (hrsv : w.toNat % 4096 / 2 ^ dw = 0) : decodeAt dw w = .accept (w.toNat % 4096) := by
  have hdur : w.toNat % 2 ^ dw = w.toNat % 4096 := by
    have hdvd : 2 ^ dw ∣ 4096 := pow_dvd_pow 2 h12
    have hlt : w.toNat % 4096 < 2 ^ dw := Nat.div_eq_zero_iff.mp hrsv |>.resolve_left (by positivity)
    rw [← Nat.mod_mod_of_dvd _ hdvd, Nat.mod_eq_of_lt hlt]
  simp [decodeAt, decodeLegalAt, opcField_eq, rsvField_eq h12, durField_eq h1, hcode, hrsv, hdur]

/-- An instruction is ACCEPT, a reserved word, or an operation without an operand, which has a code. -/
theorem Instr.cases_by_code (i : Instr) :
    (∃ d, i = .accept d) ∨ (∃ w, i = .reserved w) ∨ ∃ n, plainOperation n = some i := by
  cases i with
  | accept d => exact .inl ⟨d, rfl⟩
  | reserved w => exact .inr (.inl ⟨w, rfl⟩)
  | nop => exact .inr (.inr ⟨0x0, rfl⟩)
  | acq => exact .inr (.inr ⟨0x2, rfl⟩)
  | pkt => exact .inr (.inr ⟨0x3, rfl⟩)
  | valid => exact .inr (.inr ⟨0x4, rfl⟩)
  | id => exact .inr (.inr ⟨0x5, rfl⟩)
  | hum => exact .inr (.inr ⟨0x6, rfl⟩)
  | temp => exact .inr (.inr ⟨0x7, rfl⟩)
  | temptxt => exact .inr (.inr ⟨0x8, rfl⟩)
  | stmin => exact .inr (.inr ⟨0x9, rfl⟩)
  | stmax => exact .inr (.inr ⟨0xA, rfl⟩)
  | stmean => exact .inr (.inr ⟨0xB, rfl⟩)

/-- An operation without an operand is well-formed for every duration width. -/
theorem wellFormedAt_of_plainOperation {n : Nat} {i : Instr} (hi : plainOperation n = some i) (dw : Nat) :
    i.wellFormedAt dw = true := by
  unfold plainOperation at hi
  split at hi <;> cases hi <;> rfl

/-- Decoding inverts the encoding of well-formed instructions. -/
theorem decodeAt_encode {dw : Nat} (h1 : 1 ≤ dw) (h12 : dw ≤ 12) {i : Instr} (hi : i.wellFormedAt dw = true) :
    decodeAt dw (encode i) = i := by
  obtain ⟨d, rfl⟩ | ⟨w, rfl⟩ | ⟨n, hn⟩ := i.cases_by_code
  · have hd : d < 2 ^ dw := of_decide_eq_true hi
    have h4096 : d < 4096 := hd.trans_le (Nat.pow_le_pow_right (by omega) h12 : _ ≤ 2 ^ 12)
    have hword := encode_accept_toNat h4096
    have hlow : (encode (.accept d)).toNat % 4096 = d := by omega
    rw [decodeAt_accept h1 h12 (by omega) (by rw [hlow, Nat.div_eq_of_lt hd]), hlow]
  · exact decodeAt_illegal h12 hi
  · exact decodeAt_plain hn dw (plainOperation_encode hn).1

/-- A word with ACCEPT's code is the word of ACCEPT with its other twelve bits as operand. -/
theorem encode_accept_of_code {w : OpWord} (hcode : w.toNat / 4096 = 1) : encode (.accept (w.toNat % 4096)) = w := by
  apply BitVec.eq_of_toNat_eq
  rw [encode_accept_toNat (Nat.mod_lt _ (by omega))]
  omega

/-- Every word decodes to a well-formed instruction whose word it is. -/
theorem decodeAt_wellFormed_and_encode {dw : Nat} (h1 : 1 ≤ dw) (h12 : dw ≤ 12) (w : OpWord) :
    (decodeAt dw w).wellFormedAt dw = true ∧ encode (decodeAt dw w) = w := by
  by_cases hill : illegalWordAt dw w = true
  · rw [decodeAt_illegal h12 hill]
    exact ⟨hill, rfl⟩
  · rw [illegalWordAt_iff] at hill
    obtain hcode | ⟨i, hi⟩ := code_cases (n := w.toNat / 4096) (by omega)
    · have hrsv : w.toNat % 4096 / 2 ^ dw = 0 := by tauto
      rw [decodeAt_accept h1 h12 hcode hrsv]
      have hlt := Nat.div_eq_zero_iff.mp hrsv |>.resolve_left (by positivity)
      exact ⟨decide_eq_true hlt, encode_accept_of_code hcode⟩
    · have hcode := ne_one_of_plainOperation hi
      have hw : w.toNat = 4096 * (w.toNat / 4096) := by omega
      rw [decodeAt_plain hi dw hw]
      exact ⟨wellFormedAt_of_plainOperation hi dw, BitVec.eq_of_toNat_eq ((plainOperation_encode hi).1.trans hw.symm)⟩

end Sys2Proof
end

section
/-! The statements of 30_encoding.md R81 to R84 about the decoder and the encoder. -/

open Sys2Proof Sys2Proof.Machine

namespace Sys2Proof.Proofs.Encoding

/-- Settles O2: the fields of an instruction's word are its code and its operand, and an illegal word is kept whole. -/
theorem decodeOfEncode : Obligations.DecodeOfEncode :=
  fun _ h7 h12 _ hi => decodeAt_encode (by omega) h12 hi

/-- Settles O3: a word is illegal and kept whole, or its code names an operation and its other bits are the operand. -/
theorem encodeOfDecode : Obligations.EncodeOfDecode :=
  fun _ h7 h12 w => decodeAt_wellFormed_and_encode (by omega) h12 w

/-- Settles O1: sixteen words decoded by evaluation. -/
theorem operationWordsDecode : Obligations.OperationWordsDecode := by
  unfold Obligations.OperationWordsDecode
  decide

end Sys2Proof.Proofs.Encoding
end

section
/-! SUPPORT. The clock cycle at the port: what it runs, and that an operation neither reads nor writes the cycles to come
(30_encoding.md R87, 20_memory.md R60). -/

namespace Sys2Proof.Machine

/-- The machine with other cycles to come. -/
def State.Of.withInputs {sw cw : Nat} (s : State.Of sw cw) (l : List Cycle) : State.Of sw cw := { s with inputs := l }

/-- An outcome with its next state changed. -/
def mapNext {σ : Type} (f : σ → σ) : Host.Outcome σ Fault Refusal → Host.Outcome σ Fault Refusal
  | .next t => .next (f t)
  | .fault e => .fault e
  | .refused e => .refused e

/-- Operations do not look at the cycles to come. -/
theorem exec_withInputs (i : Instr) (s : State) (l : List Cycle) :
    exec i (s.withInputs l) = mapNext (·.withInputs l) (exec i s) := by
  cases i with
  | accept d =>
    change execAcceptAt Config.current d (s.withInputs l) = mapNext _ (execAcceptAt Config.current d s)
    unfold execAcceptAt
    rw [show (s.withInputs l).regs = s.regs from rfl]
    split <;> rfl
  | _ => rfl

theorem exec_accept_error {d : Nat} {s : State} {f : Fault} (h : acceptRegs Config.current d s.regs = .error f) :
    exec (.accept d) s = .fault f := by
  change execAcceptAt Config.current d s = .fault f
  simp only [execAcceptAt, h]

/-- An operation leaves the cycles to come alone. -/
theorem exec_inputs {i : Instr} {s t : State} (h : exec i s = .next t) : t.inputs = s.inputs := by
  obtain ⟨r, d, st, rfl, -⟩ := exec_cases h
  rfl

theorem runOps_inputs {ops : List Instr} {s t : State} (h : runOps ops s = .next t) : t.inputs = s.inputs := by
  induction ops generalizing s with
  | nil => rw [← Host.Outcome.next.inj h]
  | cons i is ih =>
    obtain ⟨u, hu, hrun⟩ := runOps_cons_cases h
    rw [ih hrun, exec_inputs hu]

/-- Without a cycle to come the pins ask for nothing, which is a NOP (log 5). -/
theorem step_nothing_presented {s : State} (h : s.inputs = []) : step s = exec .nop s := by
  unfold step State.Of.nextCycle
  rw [h]
  rfl

/-- A cycle without reset runs its word, or a NOP when `op_valid` is 0. -/
theorem step_operation {s : State} {k : Cycle} {rest : List Cycle} (h : s.inputs = k :: rest) (hrst : k.rst = false) :
    step s = exec (if k.opValid then decode k.op else .nop) (s.withInputs rest) := by
  have hop : k.operation? = some (if k.opValid then decode k.op else .nop) := by
    unfold Cycle.operation? Cycle.operationAt?
    rw [hrst]
    cases k.opValid <;> rfl
  unfold step
  rw [State.Of.nextCycle_cons h]
  simp only [hop]
  rfl

/-- A cycle with reset runs nothing, whatever its other pins hold. -/
theorem step_reset {s : State} {k : Cycle} {rest : List Cycle} (h : s.inputs = k :: rest) (hrst : k.rst = true) :
    step s = .next (s.withInputs rest).takeReset := by
  have hop : k.operation? = none := if_pos hrst
  unfold step
  rw [State.Of.nextCycle_cons h]
  simp only [hop]
  rfl

/-- The word in front of the port is what the next step runs. -/
theorem step_present (s : State) (w : OpWord) (rest : List Cycle) :
    step (s.withInputs (Cycle.present w :: rest)) = exec (decode w) (s.withInputs rest) :=
  step_operation (s := s.withInputs (Cycle.present w :: rest)) (k := Cycle.present w) rfl rfl

/-- Everything a step can do: a reset cycle, a presented operation, or the registers stay as they are. -/
theorem step_next_cases {s t : State} (h : step s = .next t) :
    (∃ k rest, s.inputs = k :: rest ∧ k.rst = true ∧ t = (s.withInputs rest).takeReset) ∨
      (∃ k rest, s.inputs = k :: rest ∧ k.rst = false ∧ k.opValid = true ∧
        exec (decode k.op) (s.withInputs rest) = .next t) ∨
      t.regs = s.regs := by
  match hin : s.inputs with
  | [] =>
    rw [step_nothing_presented hin] at h
    exact .inr (.inr (by rw [← Host.Outcome.next.inj h]; rfl))
  | k :: rest =>
    match hrst : k.rst, hvalid : k.opValid with
    | true, _ =>
      rw [step_reset hin hrst] at h
      exact .inl ⟨k, rest, rfl, hrst, (Host.Outcome.next.inj h).symm⟩
    | false, true =>
      rw [step_operation hin hrst, hvalid, if_pos rfl] at h
      exact .inr (.inl ⟨k, rest, rfl, hrst, hvalid, h⟩)
    | false, false =>
      rw [step_operation hin hrst, hvalid, if_neg Bool.false_ne_true] at h
      exact .inr (.inr (by rw [← Host.Outcome.next.inj h]; rfl))

/-- As many steps as operations are presented run these operations one after another. -/
theorem run_presented (ops : List Instr) (hwf : ∀ i ∈ ops, i.WellFormed) (s : State) (rest : List Cycle) :
    Host.Core.run Sys2Proof.core ops.length (s.withInputs (presented ops ++ rest)) = runOps ops (s.withInputs rest) := by
  induction ops generalizing s with
  | nil => rfl
  | cons i is ih =>
    obtain ⟨hi, his⟩ := List.forall_mem_cons.mp hwf
    have hdec : decode (encode i) = i := decodeAt_encode (by decide) (by decide) hi
    have hstep : step (s.withInputs (presented (i :: is) ++ rest)) = exec i (s.withInputs (presented is ++ rest)) :=
      (step_present s (encode i) (presented is ++ rest)).trans (by rw [hdec])
    rw [exec_withInputs] at hstep
    rw [List.length_cons, runOps, exec_withInputs]
    cases he : exec i s with
    | next t => rw [he] at hstep; exact (run_next hstep).trans (ih his t)
    | fault e => rw [he] at hstep; exact run_fault hstep
    | refused e => rw [he] at hstep; exact run_refused hstep

end Sys2Proof.Machine
end

section
/-! The statements of 30_encoding.md R87, 20_memory.md R60 and 70_reset_and_hazards.md R200 about the clock cycle. -/

open Sys2Proof Sys2Proof.Machine

namespace Sys2Proof.Proofs.Port

/-- Settles O6: the three kinds of cycle without reset; `withFetchWord` puts its word in front of the port. -/
theorem stepRunsPresentedOperation : Obligations.StepRunsPresentedOperation := by
  refine ⟨fun s k rest => step_operation, fun s => step_nothing_presented, fun s nbits w i hi => ?_⟩
  have hdec : decode (tableWord nbits w) = i := by
    unfold decodeTableWord at hi
    split at hi
    · exact Option.some.inj hi
    · cases hi
  rw [← hdec]
  exact step_present s (tableWord nbits w) s.inputs

/-- Settles O7: by induction on the operations, whose words decode to them and which leave the cycles to come alone. -/
theorem presentedOperationsRunInOrder : Obligations.PresentedOperationsRunInOrder :=
  fun ops s rest hwf => run_presented ops hwf s rest

/-- Settles O8: the reset cycle's effect names neither `op_valid` nor `op`. -/
theorem resetCycleWins : Obligations.ResetCycleWins :=
  fun s _ rest hin hrst => ⟨(s.withInputs rest).takeReset, step_reset hin hrst, rfl, rfl, rfl, rfl,
    fun k' hrst' => step_reset (s := s.withInputs (k' :: rest)) rfl hrst'⟩

/-- Settles O9: of the operations only ACCEPT touches `state`, only ACQ clears the flag and only a completion sets it. -/
theorem onlyAcceptOrResetMovesTheSynchronizer : Obligations.OnlyAcceptOrResetMovesTheSynchronizer := by
  intro s t hstep
  obtain ⟨k, rest, hin, hrst, rfl⟩ | ⟨k, rest, hin, hrst, hvalid, hexec⟩ | hsame := step_next_cases hstep
  · exact ⟨fun _ => ⟨k, rest, hin, .inl hrst⟩, fun _ _ => ⟨k, rest, hin, .inl hrst⟩, fun _ => nofun⟩
  · have hflag := exec_acquired hexec
    rw [show (s.withInputs rest).regs = s.regs from rfl] at hflag
    refine ⟨fun hmoved => ⟨k, rest, hin, .inr ⟨hvalid, ?_⟩⟩, fun hold hnew => ⟨k, rest, hin, .inr ⟨hvalid, ?_⟩⟩,
      fun hold hnew => ⟨k, rest, hin, hrst, hvalid, ?_⟩⟩
    · obtain ⟨r, d, st, rfl, ⟨-, rfl⟩ | ⟨e, he, -⟩⟩ := exec_cases hexec
      · exact absurd (queryRegs_acquisition Config.current _ s.regs).1 hmoved
      · exact ⟨e, he⟩
    · by_contra hacq
      rw [if_neg hacq, hold, hnew] at hflag
      cases hflag
    · rw [hnew, hold] at hflag
      split at hflag
      · cases hflag
      · simpa using hflag.symm
  · rw [hsame]
    exact ⟨fun h => absurd rfl h, fun hold hnew => absurd (hold.symm.trans hnew) nofun,
      fun hold hnew => absurd (hnew.symm.trans hold) nofun⟩

/-- Settles O10: only ACCEPT of a valid sample in ACQUIRING looks up a byte of the packet. -/
theorem operationsStopOnlyOutsideThePacket : Obligations.OperationsStopOnlyOutsideThePacket := by
  intro i s
  cases hdur : i.duration? with
  | none =>
    obtain ⟨d, st, he⟩ := exec_query hdur s
    exact .inl ⟨_, he⟩
  | some d =>
    obtain rfl := eq_accept_of_duration? hdur
    by_cases hval : classify d = .invalid
    · exact .inl ⟨_, exec_accept_invalid hval s⟩
    · obtain ⟨b, hb⟩ := exists_bit_of_valid hval
      by_cases hs : s.regs.state = .acquiring
      · obtain hbyte | hbyte := Nat.lt_or_ge s.regs.byteIdx.toNat 5
        · exact .inl ⟨_, exec_accept_ok (acceptRegs_acquiring hb hs (i := ⟨_, hbyte⟩) rfl)⟩
        · exact .inr ⟨exec_accept_error (acceptRegs_outside hb hs hbyte), hs, hbyte, d, rfl, hval⟩
      · exact .inl ⟨_, exec_accept_ok (acceptRegs_search hb hs)⟩

end Sys2Proof.Proofs.Port
end

section
/-! SUPPORT. The means of STMEAN in numbers: what it answers and what it stores (42_stats.md R142). -/

namespace Sys2Proof.Machine

variable {sw cw : Nat}

/-- A class without a sample has no mean. -/
theorem Regs.mean?_eq (r : Regs sw cw) (b : Bool) :
    r.mean? b = if (r.statCnt.get b).toNat = 0 then none
      else some ((r.statSum.get b).toNat / (r.statCnt.get b).toNat) := by
  have hzero : r.statCnt.get b = 0 ↔ (r.statCnt.get b).toNat = 0 := by
    rw [← BitVec.toNat_inj]
    simp
  simp only [mean?, hzero]

/-- The sum of a class after its mean is stored: only a class with samples is divided. -/
def Regs.meanSum (r : Regs sw cw) (b : Bool) : BitVec sw :=
  if (r.statCnt.get b).toNat = 0 then r.statSum.get b
  else BitVec.ofNat sw ((r.statSum.get b).toNat / (r.statCnt.get b).toNat)

theorem Regs.storeMean_eq (r : Regs sw cw) (b : Bool) :
    r.storeMean b = { r with statSum := r.statSum.set b (r.meanSum b) } := by
  rw [storeMean, mean?_eq, meanSum]
  by_cases h : (r.statCnt.get b).toNat = 0
  · simp only [if_pos h]
    cases b <;> rfl
  · simp only [if_neg h]

/-- Both means stored: each class's sum is divided by its own count. -/
theorem Regs.storeMeans_eq (r : Regs sw cw) :
    (r.storeMean false).storeMean true = { r with statSum := ⟨r.meanSum false, r.meanSum true⟩ } := by
  rw [storeMean_eq, storeMean_eq]
  rfl

/-- A stored mean fits its sum (R142). -/
theorem Regs.meanSum_toNat {r : Regs sw cw} {b : Bool} (h : (r.statCnt.get b).toNat ≠ 0) :
    (r.meanSum b).toNat = (r.statSum.get b).toNat / (r.statCnt.get b).toNat := by
  rw [meanSum, if_neg h, BitVec.toNat_ofNat, Nat.mod_eq_of_lt ((Nat.div_le_self _ _).trans_lt (BitVec.isLt _))]

/-- The four fields of STMEAN's result stand side by side (R142). -/
theorem meanWord_eq_ofNat {m1 m0 : Option Nat} (h1 : m1.getD 0 < 2 ^ 16) (h0 : m0.getD 0 < 2 ^ 16) :
    meanWord m1 m0 = BitVec.ofNat 40 ((if m1.isNone then 2 ^ 33 else 0) + (if m0.isNone then 2 ^ 32 else 0) +
      m1.getD 0 * 2 ^ 16 + m0.getD 0) := by
  have hbit (p : Bool) (n : Nat) : p.toNat * 2 ^ n = if p then 2 ^ n else 0 := by cases p <;> simp
  rw [meanWord, meanField_of_lt h1, meanField_of_lt h0, ← BitVec.ofNat_toNat]
  congr 1
  simp only [BitVec.toNat_append, BitVec.toNat_ofBool, BitVec.toNat_ofNat, Nat.mod_eq_of_lt h1, Nat.mod_eq_of_lt h0]
  rw [← Nat.shiftLeft_add_eq_or_of_lt h0, ← Nat.shiftLeft_add_eq_or_of_lt h1,
    ← Nat.shiftLeft_add_eq_or_of_lt (Bool.toNat_lt m0.isNone), ← hbit, ← hbit]
  simp only [Nat.shiftLeft_eq]
  omega

/-- STMEAN of the configured machine as one answer. -/
theorem exec_stmean (s : State) :
    exec .stmean s = .next (s.respond { s.regs with statSum := ⟨s.regs.meanSum false, s.regs.meanSum true⟩ }
      (meanWord (s.regs.mean? true) (s.regs.mean? false))
      (if (s.regs.mean? true).isNone || (s.regs.mean? false).isNone then .div0 else .ok)) := by
  rw [← Regs.storeMeans_eq]
  rfl

/-- The mean that the machine answers for a class; 0 stands for none (R142). -/
theorem Regs.mean?_getD (r : Regs sw cw) (b : Bool) :
    (r.mean? b).getD 0 =
      if (r.statCnt.get b).toNat = 0 then 0 else (r.statSum.get b).toNat / (r.statCnt.get b).toNat := by
  rw [mean?_eq]
  split <;> rfl

theorem Regs.mean?_isNone (r : Regs sw cw) (b : Bool) :
    (r.mean? b).isNone = decide ((r.statCnt.get b).toNat = 0) := by
  rw [mean?_eq]
  split
  next h => simp [h]
  next h => simp [h]

theorem Regs.mean?_getD_lt (r : Regs sw cw) (b : Bool) : (r.mean? b).getD 0 < 2 ^ sw := by
  cases h : r.mean? b with
  | none => exact Nat.two_pow_pos sw
  | some m => exact mean?_lt h

/-- The field of class `b` in STMEAN's result is its mean. -/
theorem meanWord_extract {m1 m0 : Option Nat} (h1 : m1.getD 0 < 2 ^ 16) (h0 : m0.getD 0 < 2 ^ 16) (b : Bool) :
    (meanWord m1 m0).extractLsb' (if b then 16 else 0) 16 = BitVec.ofNat 16 (if b then m1.getD 0 else m0.getD 0) := by
  apply BitVec.eq_of_toNat_eq
  rw [meanWord_eq_ofNat h1 h0, BitVec.extractLsb'_toNat, BitVec.toNat_ofNat, BitVec.toNat_ofNat,
    Nat.shiftRight_eq_div_pow]
  cases b <;> cases m1.isNone <;> cases m0.isNone <;> simp <;> omega

/-- What STMEAN leaves for a class with samples: the quotient in its sum and in its field of the result, its count as it was. -/
theorem exec_stmean_class {s t : State} (h : exec .stmean s = .next t) {b : Bool} (hb : s.regs.statCnt.get b ≠ 0) :
    t.regs.statCnt = s.regs.statCnt ∧
      (t.regs.statSum.get b).toNat = (s.regs.statSum.get b).toNat / (s.regs.statCnt.get b).toNat ∧
      t.rData.extractLsb' (if b then 16 else 0) 16 = t.regs.statSum.get b := by
  have hcnt : (s.regs.statCnt.get b).toNat ≠ 0 := fun h0 => hb (BitVec.eq_of_toNat_eq h0)
  rw [exec_stmean] at h
  obtain rfl := Host.Outcome.next.inj h
  have hget : (PerClass.mk (s.regs.meanSum false) (s.regs.meanSum true)).get b = s.regs.meanSum b := by cases b <;> rfl
  refine ⟨rfl, (congrArg BitVec.toNat hget).trans (Regs.meanSum_toNat hcnt), ?_⟩
  have hmean : (if b then (s.regs.mean? true).getD 0 else (s.regs.mean? false).getD 0) = (s.regs.mean? b).getD 0 := by
    cases b <;> rfl
  rw [State.Of.respond_rData, meanWord_extract (Regs.mean?_getD_lt _ _) (Regs.mean?_getD_lt _ _), hmean,
    Regs.mean?_getD, if_neg hcnt]
  exact (hget.trans (if_neg hcnt)).symm

end Sys2Proof.Machine
end

section
/-! The statements of 42_stats.md R142 about STMEAN. -/

open Sys2Proof Sys2Proof.Machine

namespace Sys2Proof.Proofs.Means

/-- Settles O17: the result's four fields in numbers, and both sums after their means are stored. -/
theorem stmeanReturnsAndStoresMeans : Obligations.StmeanReturnsAndStoresMeans := by
  refine ⟨by decide, fun s => ?_⟩
  dsimp only
  rw [exec_stmean, meanWord_eq_ofNat (Regs.mean?_getD_lt _ _) (Regs.mean?_getD_lt _ _)]
  -- Each class has samples or none; both texts then say the same of it.
  by_cases h0 : s.regs.statCnt.class0.toNat = 0 <;> by_cases h1 : s.regs.statCnt.class1.toNat = 0 <;>
    simp [Regs.mean?_getD, Regs.mean?_isNone, Regs.meanSum, State.Of.respond, Status.code, h0, h1]

/-- Settles O18: each STMEAN divides the sum it finds by the count it leaves alone. -/
theorem secondStmeanDividesAgain : Obligations.SecondStmeanDividesAgain := by
  intro s t u hfirst hsecond b hb
  obtain ⟨hcnt, hsum, -⟩ := exec_stmean_class hfirst hb
  obtain ⟨-, hsum', hfield⟩ := exec_stmean_class hsecond (hcnt ▸ hb)
  rw [hcnt] at hsum'
  refine ⟨by rw [hsum', hsum], hfield, fun hone => BitVec.eq_of_toNat_eq ?_⟩
  rw [hsum', hone]
  exact Nat.div_one _

end Sys2Proof.Proofs.Means
end

section
/-! SUPPORT. The steps of a byte's CRC as a shift register fed with the byte's bits, bit 7 first (43_crc.md R150). -/

namespace Sys2Proof

/-- One bit fed into the register: shift, and the feedback constant when the top bit and the data bit differ (R150). -/
def crcFeed (crc : Byte) (bit : Bool) : Byte := if crc.msb != bit then crc <<< 1 ^^^ 0x31#8 else crc <<< 1

theorem crcStep_eq_crcFeed (crc byte : Byte) : crcStep crc byte = crcFeed crc (byte.getLsbD 7) := by
  have htop : byte.msb = byte.getLsbD 7 := BitVec.msb_eq_getLsbD_last byte
  rw [crcStep_eq, htop, crcFeed, Bool.bne_eq_xor]
  cases crc.msb ^^ byte.getLsbD 7 <;> simp [Config.crcPoly]

/-- The first `k` steps of a byte take its `k` highest bits from the top down. -/
theorem crcSteps_eq_foldl {k : Nat} (hk : k ≤ 8) (crc byte : Byte) :
    crcSteps k crc byte = ((List.range k).map fun j => byte.getLsbD (7 - j)).foldl crcFeed crc := by
  induction k generalizing crc byte with
  | zero => rfl
  | succ k ih =>
    have hshift : ∀ j ∈ List.range k, (byte <<< 1).getLsbD (7 - j) = byte.getLsbD (7 - (j + 1)) := by
      intro j hj
      have hlt := List.mem_range.mp hj
      rw [BitVec.getLsbD_shiftLeft, show 7 - j - 1 = 7 - (j + 1) by omega]
      simp [show 7 - j < 8 by omega, show ¬7 - j < 1 by omega, -BitVec.getLsbD_eq_getElem]
    rw [crcSteps, ih (by omega), List.map_congr_left hshift, List.range_succ_eq_map, List.map_cons, List.foldl_cons,
      List.map_map, crcStep_eq_crcFeed]
    rfl

/-- A whole byte is fed bit 7 first. -/
theorem crcSteps_eight_eq_foldl (crc byte : Byte) : crcSteps 8 crc byte = (Machine.bitsOfByte byte).foldl crcFeed crc :=
  crcSteps_eq_foldl le_rfl crc byte

end Sys2Proof
end

section
/-! The statements of 43_crc.md R150 and R151. -/

open Sys2Proof Sys2Proof.Machine

namespace Sys2Proof.Proofs.CrcRegister

/-- Settles O22: each byte feeds its bits from the top down, one byte after another. -/
theorem crcIsBitSerial : Obligations.CrcIsBitSerial := by
  intro init b0 b1 b2 b3
  change _ = List.foldl crcFeed init _
  simp only [crc8From, crcSteps_eight_eq_foldl, List.foldl_append]

/-- Settles O21: the verdict is a comparison of two bytes, as a flag word; the two checksums by evaluation. -/
theorem validComparesTheChecksum : Obligations.ValidComparesTheChecksum := by
  refine ⟨by decide, fun s => ?_, ?_, ?_⟩
  case refine_2 => simp [crc8, crc8From, crcSteps, crcStep]
  case refine_3 => simp [crc8, crc8From, crcSteps, crcStep, Config.crcPoly]
  have hverdict := flagWord_eq (checksumHolds Config.current s.regs.packet)
  simp only [checksumHolds, beq_iff_eq] at hverdict
  exact congrArg (fun d => Host.Outcome.next { s with rData := d, rStatus := 0b00#2 }) hverdict

end Sys2Proof.Proofs.CrcRegister
end

section
/-! SUPPORT. The fields of the packet word in arithmetic (44_fields.md R165). -/

namespace Sys2Proof.Machine

variable (p : Packet)

/-- The packet word as a number, byte 0 highest (41_handoff.md R131). -/
theorem packetWord_toNat : (packetWord p).toNat =
    p.b0.toNat * 2 ^ 32 + p.b1.toNat * 2 ^ 24 + p.b2.toNat * 2 ^ 16 + p.b3.toNat * 2 ^ 8 + p.b4.toNat := by
  simp only [packetWord, BitVec.toNat_append]
  rw [← Nat.shiftLeft_add_eq_or_of_lt p.b4.isLt, ← Nat.shiftLeft_add_eq_or_of_lt p.b3.isLt,
    ← Nat.shiftLeft_add_eq_or_of_lt p.b2.isLt, ← Nat.shiftLeft_add_eq_or_of_lt p.b1.isLt]
  simp only [Nat.shiftLeft_eq]
  omega

theorem snapshotId_packetWord : snapshotId (packetWord p) = p.sensorId := by
  have h1 := p.b1.isLt
  have h2 := p.b2.isLt
  have h3 := p.b3.isLt
  have h4 := p.b4.isLt
  apply BitVec.eq_of_toNat_eq
  rw [snapshotId, BitVec.extractLsb'_toNat, Nat.shiftRight_eq_div_pow, packetWord_toNat, Packet.sensorId_toNat]
  have h0 := p.b0.isLt
  omega

theorem snapshotMagnitude_packetWord : snapshotMagnitude (packetWord p) = p.magnitude := by
  have h2 := p.b2.isLt
  have h3 := p.b3.isLt
  have h4 := p.b4.isLt
  apply BitVec.eq_of_toNat_eq
  rw [snapshotMagnitude, BitVec.extractLsb'_toNat, Nat.shiftRight_eq_div_pow, packetWord_toNat, Packet.magnitude_toNat]
  omega

theorem snapshotSign_packetWord : snapshotSign (packetWord p) = p.negative := by
  have h1 : (packetWord p).extractLsb' 24 8 = p.b1 := packetWord_extract p 1
  rw [Packet.negative_eq_getLsbD, ← h1, BitVec.getLsbD_extractLsb']
  rfl

theorem snapshotHumidity_packetWord : snapshotHumidity (packetWord p) = p.humidity := packetWord_extract p 3

theorem snapshotChecksum_packetWord : snapshotChecksum (packetWord p) = p.b4 := packetWord_extract p 4

end Sys2Proof.Machine
end

section
/-! The statement of 44_fields.md R165. -/

open Sys2Proof Sys2Proof.Machine

namespace Sys2Proof.Proofs.Snapshot

/-- Settles O29: the snapshot is the packet word of the state, and each field of the word is the packet's own. -/
theorem snapshotFieldsAgree : Obligations.SnapshotFieldsAgree := by
  intro s t hexec
  obtain rfl := Host.Outcome.next.inj hexec
  obtain ⟨-, hvalid, -⟩ := CrcRegister.validComparesTheChecksum
  have h0 : (packetWord s.regs.packet).extractLsb' 32 8 = s.regs.packet.b0 := packetWord_extract s.regs.packet 0
  have h1 : (packetWord s.regs.packet).extractLsb' 24 8 = s.regs.packet.b1 := packetWord_extract s.regs.packet 1
  have h2 : (packetWord s.regs.packet).extractLsb' 16 8 = s.regs.packet.b2 := packetWord_extract s.regs.packet 2
  have h3 : (packetWord s.regs.packet).extractLsb' 8 8 = s.regs.packet.b3 := packetWord_extract s.regs.packet 3
  rw [State.Of.respond_rData, snapshotId_packetWord, snapshotHumidity_packetWord, snapshotSign_packetWord,
    snapshotMagnitude_packetWord, snapshotChecksum_packetWord, h0, h1, h2, h3]
  exact ⟨rfl, rfl, rfl, rfl, hvalid s⟩

end Sys2Proof.Proofs.Snapshot
end

section
/-! SUPPORT. The decimal digits of a whole part below 1000 and their characters (44_fields.md R164). -/

namespace Sys2Proof

theorem asciiDigit_toNat {n : Nat} (h : n ≤ 9) : (asciiDigit n).toNat = 0x30 + n := by
  rw [asciiDigit, BitVec.toNat_add, BitVec.toNat_ofNat, BitVec.toNat_ofNat]
  omega

theorem asciiDigit_eq_ofNat (n : Nat) : asciiDigit n = BitVec.ofNat 8 (0x30 + n) := by
  rw [asciiDigit, BitVec.ofNat_add]

variable {n : Nat}

theorem le_nine_of_mem_decimalDigits (h : n ≤ 999) : ∀ d ∈ decimalDigits n, d ≤ 9 := by
  unfold decimalDigits
  split
  · simp; omega
  · split <;> simp <;> omega

theorem decimalDigits_length (n : Nat) : 1 ≤ (decimalDigits n).length ∧ (decimalDigits n).length ≤ 3 := by
  unfold decimalDigits
  split
  · simp
  · split <;> simp

/-- The digits have the number's value. -/
theorem decimalDigits_value (n : Nat) : (decimalDigits n).foldl (fun v d => 10 * v + d) 0 = n := by
  unfold decimalDigits
  split
  · simp
  · split <;> simp <;> omega

/-- Only the number 0 begins with the digit 0. -/
theorem decimalDigits_of_head_zero (h : (decimalDigits n).head? = some 0) : decimalDigits n = [0] := by
  unfold decimalDigits at h
  split at h
  · obtain rfl := Option.some.inj h
    rfl
  · split at h <;> simp at h <;> omega

/-- The characters of the digits have their values. -/
theorem asciiDigits_value {ds : List Nat} (h : ∀ d ∈ ds, d ≤ 9) :
    (ds.map asciiDigit).foldl (fun v d => 10 * v + (d.toNat - 0x30)) 0 = ds.foldl (fun v d => 10 * v + d) 0 := by
  rw [List.foldl_map]
  refine List.foldl_ext _ _ _ fun v d hd => ?_
  rw [asciiDigit_toNat (h d hd), Nat.add_sub_cancel_left]

theorem asciiDigit_range {ds : List Nat} (h : ∀ d ∈ ds, d ≤ 9) :
    ∀ b ∈ ds.map asciiDigit, 0x30 ≤ b.toNat ∧ b.toNat ≤ 0x39 := by
  rw [List.forall_mem_map]
  intro d hd
  have hle := h d hd
  rw [asciiDigit_toNat hle]
  omega

/-- The text of a number does not begin with the character 0 unless it is that character. -/
theorem asciiDigits_of_head_zero (hn : n ≤ 999) (h : ((decimalDigits n).map asciiDigit).head? = some 0x30#8) :
    (decimalDigits n).map asciiDigit = [0x30#8] := by
  rw [List.head?_map, Option.map_eq_some_iff] at h
  obtain ⟨d, hd, hchar⟩ := h
  have hzero : d = 0 := by
    have hval := asciiDigit_toNat (le_nine_of_mem_decimalDigits hn d (List.mem_of_mem_head? hd))
    rw [hchar] at hval
    simpa using hval
  rw [decimalDigits_of_head_zero (hzero ▸ hd)]
  rfl

theorem render_length (sign : Bool) (whole fraction : Nat) :
    (render sign whole fraction).length = sign.toNat + (decimalDigits whole).length + 2 := by
  cases sign with
  | false => simp [render]
  | true => simp [render]; omega

/-- A text begins with the minus exactly when its sign is set: without one it begins with a digit. -/
theorem render_head_minus {whole : Nat} (h : whole ≤ 999) (sign : Bool) (fraction : Nat) :
    (render sign whole fraction).head? = some 0x2D#8 ↔ sign = true := by
  cases sign with
  | true => simp [render, asciiMinus]
  | false =>
    match hds : decimalDigits whole with
    | [] => exact absurd (decimalDigits_length whole).1 (by simp [hds])
    | d :: ds =>
      have hrange := asciiDigit_range (le_nine_of_mem_decimalDigits h) (asciiDigit d) (by simp [hds])
      have hne : asciiDigit d ≠ 0x2D#8 := fun he => by rw [he] at hrange; exact absurd hrange.1 (by decide)
      simp [render, hds, hne]

end Sys2Proof
end

section
/-! The statement of 44_fields.md R164. -/

open Sys2Proof Sys2Proof.Machine

namespace Sys2Proof.Proofs.TemperatureText

/-- Settles O28: the digits in the middle of the text are those of the whole part; the four examples by evaluation. -/
theorem textHasTheShape : Obligations.TextHasTheShape := by
  refine ⟨fun sign whole fraction hw hf => ?_, by decide, by decide, by decide, by decide⟩
  have hdigits := le_nine_of_mem_decimalDigits hw
  obtain ⟨hmin, hmax⟩ := decimalDigits_length whole
  have hsign := sign.toNat_le
  rw [render_length]
  refine ⟨⟨(decimalDigits whole).map asciiDigit, ?_, by rwa [List.length_map], by rwa [List.length_map],
    asciiDigit_range hdigits, ?_, asciiDigits_of_head_zero hw⟩, by omega, by omega, render_head_minus hw sign fraction⟩
  · rw [render, ← asciiDigit_eq_ofNat]
    rfl
  · rw [asciiDigits_value hdigits, decimalDigits_value]

end Sys2Proof.Proofs.TemperatureText
end

section
/-! The statements of 41_handoff.md R130, 20_memory.md R58 and 00_scope.md R6, each read off the operations' definitions. -/

open Sys2Proof Sys2Proof.Machine

namespace Sys2Proof.Proofs.Queries

/-- Settles O12: the old flag is the result's bit 0. -/
theorem acqReadsAndClears : Obligations.AcqReadsAndClears := by
  refine ⟨by decide, fun s => ?_⟩
  rw [← flagWord_eq]
  rfl

/-- Settles O51: a plain query answers with the registers as they are, so its answer is the same the next time. -/
theorem queriesRepeat : Obligations.QueriesRepeat := by
  intro i hi s
  fin_cases hi <;> exact ⟨_, rfl, rfl, rfl⟩

/-- Settles O54: the defaults by evaluation; `exec` and `step` have the arms of the block at the defaults. -/
theorem defaultParametersGiveTheMachine : Obligations.DefaultParametersGiveTheMachine :=
  ⟨rfl, by decide, rfl, fun i s => (exec_eq_execAt i s).symm, fun s => (step_eq_stepAt s).symm⟩

end Sys2Proof.Proofs.Queries
end

section
/-! SUPPORT. Samples outside ACQUIRING in a state of the invariant: a HIGH one only leaves IDLE, a LOW one starts a frame
(10_state.md R32, 40_accept.md R105 to R108). -/

namespace Sys2Proof.Machine

section

variable {c : Params} {sw cw : Nat} {r : Regs sw cw} {d : Nat}

/-- Under the invariant SEARCHING holds what leaving IDLE puts there. -/
theorem RegsInv.searchFrom_eq_leaveIdle (h : RegsInv c r) (hs : r.state ≠ .acquiring) : r.searchFrom = r.leaveIdle := by
  match hr : r.state with
  | .idle => exact Regs.searchFrom_of_idle hr
  | .searching =>
    have hhist := h.searching_history hr
    rw [Regs.searchFrom_of_searching hr]
    cases r
    cases hr
    cases hhist
    rfl
  | .acquiring => exact absurd hr hs

/-- A HIGH sample outside ACQUIRING leaves IDLE, if the block is there, and that is all. -/
theorem RegsInv.acceptRegs_high (h : RegsInv c r) (hs : r.state ≠ .acquiring) (hd : classifyAt c d = .high) :
    acceptRegs c d r = .ok r.leaveIdle := by
  rw [acceptRegs_search (bit?_eq_true.mpr hd) hs, h.searchFrom_eq_leaveIdle hs,
    search_high_of_allOnes (Regs.leaveIdle_history r)]
  have hones := shiftHistory_high_of_allOnes (Regs.leaveIdle_history r)
  exact congrArg (fun x => Except.ok { r.leaveIdle with history := x }) hones

/-- The registers a LOW sample outside ACQUIRING leaves. -/
def Regs.startFrame (c : Params) (d : Nat) (r : Regs sw cw) : Regs sw cw :=
  (r.leaveIdle.shiftHistory false).syncMatch c d false

theorem RegsInv.acceptRegs_low (h : RegsInv c r) (hs : r.state ≠ .acquiring) (hd : classifyAt c d = .low) :
    acceptRegs c d r = .ok (r.startFrame c d) := by
  rw [acceptRegs_search (bit?_eq_false.mpr hd) hs, h.searchFrom_eq_leaveIdle hs,
    search_low_of_allOnes (Regs.leaveIdle_history r)]
  rfl

/-- A frame starts the same whether or not a HIGH sample has left IDLE before. -/
@[simp] theorem Regs.leaveIdle_startFrame (c : Params) (d : Nat) (r : Regs sw cw) :
    r.leaveIdle.startFrame c d = r.startFrame c d := rfl

end

variable {s : State} {d : Nat}

theorem exec_accept_high (hinv : s.Inv) (hs : s.regs.state ≠ .acquiring) (hd : classify d = .high) :
    exec (.accept d) s = .next (s.respond s.regs.leaveIdle 0 .ok) :=
  exec_accept_ok (RegsInv.acceptRegs_high hinv hs hd)

theorem exec_accept_low (hinv : s.Inv) (hs : s.regs.state ≠ .acquiring) (hd : classify d = .low) :
    exec (.accept d) s = .next (s.respond (s.regs.startFrame Config.current d) 0 .ok) :=
  exec_accept_ok (RegsInv.acceptRegs_low hinv hs hd)

/-- HIGH samples before the LOW one that starts the frame make no difference (10_state.md R32). -/
theorem runOps_highs_low {highs : List Nat} (hinv : s.Inv) (hs : s.regs.state ≠ .acquiring)
    (hhigh : ∀ e ∈ highs, classify e = .high) (hd : classify d = .low) :
    runOps ((highs ++ [d]).map .accept) s = .next (s.respond (s.regs.startFrame Config.current d) 0 .ok) := by
  induction highs generalizing s with
  | nil => exact runOps_cons (exec_accept_low hinv hs hd)
  | cons e es ih =>
    obtain ⟨he, hes⟩ := List.forall_mem_cons.mp hhigh
    rw [List.cons_append, List.map_cons, runOps_cons (exec_accept_high hinv hs he)]
    exact ih (RegsInv.leaveIdle_keeps hinv) nofun hes

theorem packetWord_zero : packetWord Packet.zero = 0#40 := by decide

/-! Without a LOW sample the record of the last frame stands. -/

/-- The two hold the same packet and the same minima, maxima and counts. -/
def Regs.SameRecord {sw cw : Nat} (a b : Regs sw cw) : Prop :=
  a.packet = b.packet ∧ a.statMin = b.statMin ∧ a.statMax = b.statMax ∧ a.statCnt = b.statCnt

theorem Regs.SameRecord.trans {sw cw : Nat} {a b e : Regs sw cw} (h : a.SameRecord b) (h' : b.SameRecord e) :
    a.SameRecord e := by
  obtain ⟨hpkt, hmin, hmax, hcnt⟩ := h
  obtain ⟨hpkt', hmin', hmax', hcnt'⟩ := h'
  exact ⟨hpkt.trans hpkt', hmin.trans hmin', hmax.trans hmax', hcnt.trans hcnt'⟩

theorem noLowSample_cons (i : Instr) (is : List Instr) :
    noLowSample (i :: is) = (noLowSample [i] && noLowSample is) := by
  rw [noLowSample, ← List.singleton_append, submitted_append, List.all_append]
  rfl

theorem noLowSample_accept (d : Nat) : noLowSample [.accept d] = true ↔ classify d ≠ .low := by
  simp [noLowSample, submitted, Instr.duration?]

/-- Outside ACQUIRING every operation but ACCEPT of a LOW sample leaves the record, and stays outside. -/
theorem exec_no_low {i : Instr} (hinv : s.Inv) (hs : s.regs.state ≠ .acquiring) (hlow : noLowSample [i] = true) :
    ∃ t, exec i s = .next t ∧ t.Inv ∧ t.regs.state ≠ .acquiring ∧ t.regs.SameRecord s.regs ∧
      (i ≠ .stmean → t.regs.statSum = s.regs.statSum) := by
  cases hdur : i.duration? with
  | none =>
    obtain ⟨_, _, he⟩ := exec_query hdur s
    obtain ⟨hstate, -, hpkt, -, -, hmin, hmax, hcnt⟩ := queryRegs_acquisition Config.current i s.regs
    exact ⟨_, he, RegsInv.queryRegs_keeps hinv i, fun ht => hs (hstate.symm.trans ht), ⟨hpkt, hmin, hmax, hcnt⟩,
      fun hi => queryRegs_statSum _ hi s.regs⟩
  | some d =>
    obtain rfl := eq_accept_of_duration? hdur
    match hd : classify d with
    | .low => exact absurd hd ((noLowSample_accept d).mp hlow)
    | .high =>
      exact ⟨_, exec_accept_high hinv hs hd, RegsInv.leaveIdle_keeps hinv, nofun, ⟨rfl, rfl, rfl, rfl⟩, fun _ => rfl⟩
    | .invalid =>
      exact ⟨_, exec_accept_invalid hd s, RegsInv.syncReset_keeps hinv, nofun, ⟨rfl, rfl, rfl, rfl⟩, fun _ => rfl⟩

/-- The same of any list of operations. -/
theorem runOps_no_low (ops : List Instr) (hinv : s.Inv) (hs : s.regs.state ≠ .acquiring) (hlow : noLowSample ops = true) :
    ∃ t, runOps ops s = .next t ∧ t.regs.SameRecord s.regs ∧ (.stmean ∉ ops → t.regs.statSum = s.regs.statSum) := by
  induction ops generalizing s with
  | nil => exact ⟨s, rfl, ⟨rfl, rfl, rfl, rfl⟩, fun _ => rfl⟩
  | cons i is ih =>
    rw [noLowSample_cons, Bool.and_eq_true] at hlow
    obtain ⟨hfirst, hrest⟩ := hlow
    obtain ⟨u, hu, hinv', hs', hrec, hsum⟩ := exec_no_low hinv hs hfirst
    obtain ⟨t, ht, hrec', hsum'⟩ := ih hinv' hs' hrest
    refine ⟨t, by rw [runOps_cons hu, ht], hrec'.trans hrec, fun hmem => ?_⟩
    obtain ⟨hne, hmem⟩ := List.ne_and_not_mem_of_not_mem_cons hmem
    exact (hsum' hmem).trans (hsum hne.symm)

end Sys2Proof.Machine
end

section
/-! The statements of 10_state.md R32 and 70_reset_and_hazards.md R206 to R212 about samples outside ACQUIRING. -/

open Sys2Proof Sys2Proof.Machine

namespace Sys2Proof.Proofs.OutsideAcquiring

/-- Settles O38: every HIGH sample leaves the same registers as the first, from which the LOW one starts the same frame. -/
theorem preambleLengthDoesNotMatter : Obligations.PreambleLengthDoesNotMatter := by
  intro highs d s hinv hs hhigh hd
  have hlow := exec_accept_low hinv hs hd
  exact ⟨(runOps_highs_low hinv hs hhigh hd).trans hlow.symm, _, hlow, rfl⟩

/-- Settles O48: without a LOW sample the block never enters ACQUIRING, and nothing else writes the record. -/
theorem packetStandsUntilTheNextLowSample : Obligations.PacketStandsUntilTheNextLowSample := by
  intro ops s hinv hs hlow
  obtain ⟨t, ht, ⟨hpkt, hmin, hmax, hcnt⟩, hsum⟩ := runOps_no_low ops hinv hs hlow
  exact ⟨t, ht, hpkt, hmin, hmax, hcnt, hsum⟩

/-- Settles O49: the sync match zeroes the packet, whose checksum then holds, and leaves the flag. -/
theorem nextFrameZeroesTheUnreadPacket : Obligations.NextFrameZeroesTheUnreadPacket := by
  intro d s hinv hs hd
  obtain ⟨-, hvalid, hzero, -⟩ := CrcRegister.validComparesTheChecksum
  exact ⟨_, _, _, _, exec_accept_low hinv hs hd, rfl, rfl, packetWord_zero, hvalid _, if_pos hzero, rfl, flagWord_eq _⟩

end Sys2Proof.Proofs.OutsideAcquiring
end

section
/-! SUPPORT. Sums that no STMEAN has touched: each lies between count times minimum and count times maximum, sample by sample
(42_stats.md R142, R143). -/

namespace Sys2Proof.Machine

/-- A sample in ACQUIRING in a state of the invariant: nothing of its own class's statistics wraps (00_scope.md R7). -/
theorem RegsInv.takeSample_own {c : Params} {r : Regs.At c} {d : Nat} {b : Bool} (h : RegsInv c r) (hc : c.Admissible)
    (hs : r.state = .acquiring) (hb : (classifyAt c d).bit? = some b) (i : Fin 5) :
    ((r.takeSample i d b).statMin.get b).toNat = min (r.statMin.get b).toNat d ∧
      ((r.takeSample i d b).statMax.get b).toNat = max (r.statMax.get b).toNat d ∧
      ((r.takeSample i d b).statSum.get b).toNat = (r.statSum.get b).toNat + d ∧
      ((r.takeSample i d b).statCnt.get b).toNat = (r.statCnt.get b).toNat + 1 := by
  obtain ⟨-, hhigh⟩ := sample_in_class hc hb
  have htop := classMax_le_loMax hc b
  obtain ⟨hmin, hmax, -⟩ := Regs.takeSample_own (b := b) i r (d := d) (by obtain ⟨-, -, -, -, hlo, -⟩ := hc; omega)
  obtain ⟨hsum, hcnt⟩ := h.fold_nowrap hc hs hhigh
  refine ⟨hmin, hmax, ?_, ?_⟩
  · rw [Regs.takeSample, Regs.advance_statSum]; exact hsum
  · rw [Regs.takeSample, Regs.advance_statCnt]; exact hcnt

section

variable {sw cw : Nat} {r r' : Regs sw cw}

theorem Regs.SumsUntouched.congr (h : r.SumsUntouched) (hmin : r'.statMin = r.statMin) (hmax : r'.statMax = r.statMax)
    (hsum : r'.statSum = r.statSum) (hcnt : r'.statCnt = r.statCnt) : r'.SumsUntouched := by
  unfold SumsUntouched
  rw [hmin, hmax, hsum, hcnt]
  exact h

/-- Under the invariant the bounds hold of a class without samples too: its sum is 0. -/
theorem Regs.SumsUntouched.bounds {c : Params} (h : r.SumsUntouched) (hinv : RegsInv c r)
    (h0 : 1 ≤ r.statCnt.class0.toNat) (b : Bool) :
    (r.statCnt.get b).toNat * (r.statMin.get b).toNat ≤ (r.statSum.get b).toNat ∧
      (r.statSum.get b).toNat ≤ (r.statCnt.get b).toNat * (r.statMax.get b).toNat := by
  obtain hcnt | hcnt := Nat.eq_zero_or_pos (r.statCnt.get b).toNat
  · obtain ⟨-, -, hsum⟩ := (hinv.classInv h0 b).unseen hcnt
    simp [hcnt, hsum]
  · exact h h0 b hcnt

/-- The mean lies between the bounds of the samples it averages. -/
theorem Regs.SumsUntouched.mean_range (h : r.SumsUntouched) (h0 : 1 ≤ r.statCnt.class0.toNat) {b : Bool}
    (hb : 1 ≤ (r.statCnt.get b).toNat) :
    ∃ m, r.mean? b = some m ∧ (r.statMin.get b).toNat ≤ m ∧ m ≤ (r.statMax.get b).toNat := by
  obtain ⟨hlow, hhigh⟩ := h h0 b hb
  refine ⟨_, by rw [Regs.mean?_eq, if_neg (by omega)], ?_, Nat.div_le_of_le_mul hhigh⟩
  exact (Nat.le_div_iff_mul_le hb).mpr (by rwa [Nat.mul_comm])

/-- One sample more: the bounds move by at most its duration. -/
theorem sum_bounds_add {n m M sum d : Nat} (h : n * m ≤ sum ∧ sum ≤ n * M) :
    (n + 1) * min m d ≤ sum + d ∧ sum + d ≤ (n + 1) * max M d := by
  obtain ⟨hlow, hhigh⟩ := h
  rw [Nat.succ_mul, Nat.succ_mul]
  exact ⟨Nat.add_le_add ((Nat.mul_le_mul_left n (Nat.min_le_left m d)).trans hlow) (Nat.min_le_right m d),
    Nat.add_le_add (hhigh.trans (Nat.mul_le_mul_left n (Nat.le_max_left M d))) (Nat.le_max_right M d)⟩

end

variable {r r' : Regs 16 8} {d : Nat} {b : Bool}

theorem sumsUntouched_startFrame (hd : classify d = .low) : (r.startFrame Config.current d).SumsUntouched := by
  have hrange : 52 ≤ d ∧ d ≤ 68 := (classifyAt_low (by decide)).mp hd
  rw [Regs.startFrame, Regs.syncMatch_low _ _ _ hrange.2 (by decide)]
  intro _ b hb
  cases b with
  | false => simp; omega
  | true => simp at hb

theorem Regs.SumsUntouched.takeSample_keeps (h : r.SumsUntouched) (hinv : RegsInv Config.current r)
    (hs : r.state = .acquiring) (hb : (classify d).bit? = some b) (i : Fin 5) : (r.takeSample i d b).SumsUntouched := by
  have hbounds := h.bounds hinv (hinv.acquiring_started hs)
  intro _ k _
  by_cases hk : k = b
  · subst hk
    obtain ⟨hmin, hmax, hsum, hcnt⟩ :=
      RegsInv.takeSample_own (c := Config.current) hinv (by decide) hs hb i
    rw [hmin, hmax, hsum, hcnt]
    exact sum_bounds_add (hbounds k)
  · obtain rfl := Bool.eq_not.mpr hk
    obtain ⟨hmin, hmax, hsum, hcnt⟩ := r.takeSample_other (d := d) (b := b) i
    rw [hmin, hmax, hsum, hcnt]
    exact hbounds (!b)

/-- ACCEPT keeps the bounds: it starts the statistics anew, folds one sample, or leaves them. -/
theorem Regs.SumsUntouched.acceptRegs_keeps (h : r.SumsUntouched) (hinv : RegsInv Config.current r)
    (hok : acceptRegs Config.current d r = .ok r') : r'.SumsUntouched := by
  by_cases hval : classify d = .invalid
  · obtain rfl := Except.ok.inj ((acceptRegs_invalid hval r).symm.trans hok)
    exact h.congr rfl rfl rfl rfl
  by_cases hs : r.state = .acquiring
  · obtain ⟨b, hb⟩ := exists_bit_of_valid hval
    obtain ⟨i, -, rfl⟩ := acceptRegs_takeSample hb hs hok
    exact h.takeSample_keeps hinv hs hb i
  match hd : classify d with
  | .invalid => exact absurd hd hval
  | .high =>
    obtain rfl := Except.ok.inj ((hinv.acceptRegs_high hs hd).symm.trans hok)
    exact h.congr rfl rfl rfl rfl
  | .low =>
    obtain rfl := Except.ok.inj ((hinv.acceptRegs_low hs hd).symm.trans hok)
    exact sumsUntouched_startFrame hd

end Sys2Proof.Machine
end

section
/-! The statement of 42_stats.md R142 and R143 about the first mean. -/

open Sys2Proof Sys2Proof.Machine

namespace Sys2Proof.Proofs.FirstMean

/-- Settles O20: the bounds on the sum divide to bounds on the mean; a sample moves them by its own duration. -/
theorem firstMeanLiesInRange : Obligations.FirstMeanLiesInRange := by
  refine ⟨fun s b h h0 hb => h.mean_range h0 hb, fun i s t hinv hi h hexec => ?_⟩
  obtain ⟨r, d, st, rfl, ⟨-, rfl⟩ | ⟨e, rfl, hok⟩⟩ := exec_cases hexec
  · obtain ⟨-, -, -, -, -, hmin, hmax, hcnt⟩ := queryRegs_acquisition Config.current i s.regs
    exact h.congr hmin hmax (queryRegs_statSum _ hi s.regs) hcnt
  · exact h.acceptRegs_keeps hinv hok

end Sys2Proof.Proofs.FirstMean
end

section
/-! SUPPORT. The forty pulses of a line `FRAME`, and the packet they stand for (30_encoding.md R89). -/

namespace Sys2Proof.Machine

/-- The duration of a bit's pulse is classified as that bit. -/
theorem classify_pulseOfBit (b : Bool) : classify (pulseOfBit b) = if b then .high else .low := by cases b <;> decide

theorem bitsOfByte_getElem? (v : Byte) {j : Nat} (hj : j < 8) : (bitsOfByte v)[j]? = some (v.getLsbD (7 - j)) := by
  simp only [bitsOfByte, List.getElem?_map, List.getElem?_range hj, Option.map_some]

theorem bitsOfByte_append_of_lt (v : Byte) (l : List Bool) {j : Nat} (hj : j < 8) :
    (bitsOfByte v ++ l)[j]? = some (v.getLsbD (7 - j)) :=
  (List.getElem?_append_left hj).trans (bitsOfByte_getElem? v hj)

theorem bitsOfByte_append_of_ge (v : Byte) (l : List Bool) (j : Nat) : (bitsOfByte v ++ l)[8 + j]? = l[j]? := by
  rw [List.getElem?_append_right (Nat.le_add_right 8 j)]
  exact congrArg (l[·]?) (Nat.add_sub_cancel_left 8 j)

/-- The bits of a packet in their order of arrival. -/
def packetBits (p : Packet) : List Bool :=
  bitsOfByte p.b0 ++ bitsOfByte p.b1 ++ bitsOfByte p.b2 ++ bitsOfByte p.b3 ++ bitsOfByte p.b4

theorem packetBits_length (p : Packet) : (packetBits p).length = 40 := rfl

/-- Bit `j` of byte `k`, counted from the top, arrives as bit `8 * k + j`. -/
theorem packetBits_getElem? (p : Packet) (k : Fin 5) {j : Nat} (hj : j < 8) :
    (packetBits p)[8 * k.val + j]? = some ((p.read k).getLsbD (7 - j)) := by
  simp only [packetBits, List.append_assoc]
  match k with
  | 0 => rw [show 8 * (0 : Fin 5).val + j = j by simp, bitsOfByte_append_of_lt _ _ hj]; rfl
  | 1 => rw [show 8 * (1 : Fin 5).val + j = 8 + j from rfl, bitsOfByte_append_of_ge, bitsOfByte_append_of_lt _ _ hj]; rfl
  | 2 =>
    rw [show 8 * (2 : Fin 5).val + j = 8 + (8 + j) by simp; omega]
    simp only [bitsOfByte_append_of_ge, bitsOfByte_append_of_lt _ _ hj, Packet.read_2]
  | 3 =>
    rw [show 8 * (3 : Fin 5).val + j = 8 + (8 + (8 + j)) by simp; omega]
    simp only [bitsOfByte_append_of_ge, bitsOfByte_append_of_lt _ _ hj, Packet.read_3]
  | 4 =>
    rw [show 8 * (4 : Fin 5).val + j = 8 + (8 + (8 + (8 + j))) by simp; omega]
    simp only [bitsOfByte_append_of_ge, bitsOfByte_getElem? _ hj, Packet.read_4]

/-- The durations of the pulses of a packet's frame. -/
def framePulses (p : Packet) : List Nat := (packetBits p).map pulseOfBit

theorem framePulses_length (p : Packet) : (framePulses p).length = 40 := by
  rw [framePulses, List.length_map, packetBits_length]

theorem framePulses_classify (p : Packet) (k : Fin 5) {j : Nat} (hj : j < 8) :
    (classify ((framePulses p).getD (8 * k.val + j) 0) == .high) = (p.read k).getLsbD (7 - j) := by
  rw [List.getD_eq_getElem?_getD, framePulses, List.getElem?_map, packetBits_getElem? p k hj, Option.map_some,
    Option.getD_some, classify_pulseOfBit]
  cases (p.read k).getLsbD (7 - j) <;> rfl

/-- The pulses are a frame when the first bit is 0. -/
theorem framePulses_isFrame {p : Packet} (h : p.b0.getLsbD 7 = false) : IsFrame (framePulses p) := by
  refine ⟨framePulses_length p, ?_, ?_⟩
  · unfold framePulses
    rw [List.forall_mem_map]
    intro b _
    rw [classify_pulseOfBit]
    cases b <;> decide
  · have hhead : (framePulses p).head? = some (pulseOfBit (p.b0.getLsbD 7)) := rfl
    rw [hhead, h]
    rfl

/-- The pulses' durations fit the operand. -/
theorem framePulses_wellFormed (p : Packet) : ∀ d ∈ framePulses p, (Instr.accept d).WellFormed := by
  unfold framePulses
  rw [List.forall_mem_map]
  rintro b -
  cases b <;> rfl

/-- A line `FRAME` presents its pulses one by one. -/
theorem frame_cyclesAt {dw : Nat} {v0 v1 v2 v3 v4 : Byte} {ds : List Nat}
    (hpulses : (AsmLine.frame v0 v1 v2 v3 v4).pulses = some ds) (hfit : ∀ d ∈ ds, (Instr.accept d).wellFormedAt dw = true) :
    (AsmLine.frame v0 v1 v2 v3 v4).cyclesAt dw = some (presented (ds.map .accept)) := by
  have hall : (ds.all fun d => (Instr.accept d).wellFormedAt dw) = true := List.all_eq_true.mpr hfit
  unfold AsmLine.cyclesAt
  simp only [hpulses, hall, if_true, presented, List.map_map]
  rfl

/-- The cycles of the line `FRAME` of a packet whose first bit is 0. -/
theorem frame_cycles {p : Packet} (h : p.b0.getLsbD 7 = false) :
    (AsmLine.frame p.b0 p.b1 p.b2 p.b3 p.b4).cycles = some (presented ((framePulses p).map .accept)) :=
  frame_cyclesAt (if_neg (Bool.eq_false_iff.mp h)) (framePulses_wellFormed p)

theorem submitted_map_accept (ds : List Nat) : submitted (ds.map .accept) = ds := by
  rw [submitted, List.filterMap_map]
  exact List.filterMap_some

/-- A packet is known by its bits. -/
theorem packet_ext_bits {p q : Packet}
    (h : ∀ (k : Fin 5) (j : Nat), j < 8 → (p.read k).getLsbD (7 - j) = (q.read k).getLsbD (7 - j)) : p = q := by
  refine Packet.ext_read fun k => BitVec.eq_of_getLsbD_eq fun i hi => ?_
  have hbit := h k (7 - i) (by omega)
  rwa [show 7 - (7 - i) = i by omega] at hbit

end Sys2Proof.Machine
end

section
/-! The statement of 30_encoding.md R89 about the line `FRAME`. -/

open Sys2Proof Sys2Proof.Machine

namespace Sys2Proof.Proofs.AssembledFrame

/-- Settles O53: the presented pulses run in order (O7), and a frame submitted without a preamble is received (O46). -/
theorem assembledFrameIsReceived : Obligations.AssembledFrameIsReceived := by
  intro v0 v1 v2 v3 v4 s rest hfirst hinv hs
  let p : Packet := ⟨v0, v1, v2, v3, v4⟩
  obtain ⟨init, last, hsplit⟩ := (framePulses p).eq_nil_or_concat.resolve_left
    (List.ne_nil_of_length_eq_add_one (framePulses_length p))
  have hops : (framePulses p).map Instr.accept = init.map .accept ++ [.accept last] := by
    rw [hsplit, List.concat_eq_append, List.map_append, List.map_singleton]
  have hsub : submitted (init.map .accept ++ [.accept last]) = [] ++ framePulses p := by
    rw [← hops, submitted_map_accept, List.nil_append]
  obtain ⟨-, t, hrun, hflag, hstate, hbits, -⟩ := FrameReceived.frameIsReceived (s.withInputs rest) [] (framePulses p)
    (init.map .accept) last hinv hs nofun (framePulses_isFrame hfirst) hsub
  rw [← hops] at hrun
  have hwf : ∀ i ∈ (framePulses p).map Instr.accept, i.WellFormed :=
    List.forall_mem_map.mpr (framePulses_wellFormed p)
  have hpresent := run_presented _ hwf s rest
  rw [List.length_map, framePulses_length] at hpresent
  have hlength : (presented ((framePulses p).map .accept)).length = 40 := by
    rw [presented, List.length_map, List.length_map, framePulses_length]
  refine ⟨_, t, frame_cycles (p := p) hfirst, hlength, hpresent.trans hrun, runOps_inputs hrun, ?_, hflag, hstate⟩
  exact packet_ext_bits fun k j hj => (hbits k.val j k.isLt hj).trans (framePulses_classify p k hj)

end Sys2Proof.Proofs.AssembledFrame
end

section
/-! SUPPORT. ACCEPT reads neither the flag nor, for the other registers, the sums: states that agree on the rest get the same
rest (10_state.md R29, 20_memory.md R61). -/

namespace Sys2Proof

/-- The parameters with other widths of the sums and counts. -/
abbrev Params.withWidths (c : Params) (sw cw : Nat) : Params := { c with sumw := sw, cntw := cw }

namespace Machine

variable {c : Params} {sw cw : Nat} {r r' q : Regs sw cw} {d : Nat} {b : Bool}

theorem Regs.SameAcquisition.trans (h : r.SameAcquisition r') (h' : r'.SameAcquisition q) : r.SameAcquisition q := by
  unfold Regs.SameAcquisition at *
  simp only [h, h', and_self]

/-- The two agree on the registers of the acquisition, and on the sums if `r` and `r'` do. -/
def Regs.SameAfter (r r' q q' : Regs sw cw) : Prop := q.SameAcquisition q' ∧ (r.statSum = r'.statSum → q.statSum = q'.statSum)

theorem Regs.SameAcquisition.syncReset (h : r.SameAcquisition r') : r.SameAfter r' r.syncReset r'.syncReset := by
  obtain ⟨-, hhist, hpkt, hbyte, hbit, hmin, hmax, hcnt⟩ := h
  exact ⟨⟨rfl, hhist, hpkt, hbyte, hbit, hmin, hmax, hcnt⟩, id⟩

/-- A search decides by the history alone, and a match starts the statistics anew. -/
theorem Regs.SameAcquisition.search (h : r.SameAcquisition r') :
    r.SameAfter r' (r.searchFrom.search c d b) (r'.searchFrom.search c d b) := by
  obtain ⟨hstate, hhist, hpkt, hbyte, hbit, hmin, hmax, hcnt⟩ := h
  have hfrom : r.searchFrom.history = r'.searchFrom.history := by simp only [Regs.searchFrom, hstate, hhist]
  have hshift : (r.searchFrom.shiftHistory b).history = (r'.searchFrom.shiftHistory b).history := by
    simp only [Regs.shiftHistory_history, hfrom]
  rw [Regs.search_eq, Regs.search_eq, hfrom]
  split
  · exact ⟨⟨rfl, hshift, rfl, rfl, rfl, rfl, rfl, rfl⟩, fun _ => rfl⟩
  · exact ⟨⟨rfl, hshift, hpkt, hbyte, hbit, hmin, hmax, hcnt⟩, id⟩

/-- The next position depends on the position alone. -/
theorem Regs.SameAcquisition.advance (h : r.SameAcquisition r') : r.advance.SameAcquisition r'.advance := by
  obtain ⟨hstate, hhist, hpkt, hbyte, hbit, hmin, hmax, hcnt⟩ := h
  unfold Regs.advance
  by_cases h8 : r'.bitIdx.toNat + 1 = 8
  · by_cases h5 : r'.byteIdx + 1 = 5
    · simp only [Regs.nextByte_byteIdx, hbit, hbyte, h8, h5, if_true]
      exact ⟨rfl, hhist, hpkt, congrArg (· + 1) hbyte, rfl, hmin, hmax, hcnt⟩
    · simp only [Regs.nextByte_byteIdx, hbit, hbyte, h8, h5, if_true, if_false]
      exact ⟨hstate, hhist, hpkt, congrArg (· + 1) hbyte, rfl, hmin, hmax, hcnt⟩
  · simp only [hbit, h8, if_false]
    exact ⟨hstate, hhist, hpkt, hbyte, rfl, hmin, hmax, hcnt⟩

/-- A sample in ACQUIRING goes by the position, the byte in progress and the statistics of its class. -/
theorem Regs.SameAcquisition.takeSample (h : r.SameAcquisition r') (i : Fin 5) :
    r.SameAfter r' (r.takeSample i d b) (r'.takeSample i d b) := by
  obtain ⟨hstate, hhist, hpkt, hbyte, hbit, hmin, hmax, hcnt⟩ := h
  refine ⟨Regs.SameAcquisition.advance ⟨hstate, hhist, ?_, hbyte, hbit, ?_, ?_, ?_⟩, fun hsum => ?_⟩
  · simp only [Regs.fold_packet, Regs.storeBit_packet, hpkt]
  · rw [Regs.fold_statMin, Regs.fold_statMin, Regs.storeBit_statMin, Regs.storeBit_statMin, hmin]
  · rw [Regs.fold_statMax, Regs.fold_statMax, Regs.storeBit_statMax, Regs.storeBit_statMax, hmax]
  · simp only [Regs.fold_statCnt, Regs.storeBit_statCnt, hcnt]
  · simp only [Regs.takeSample, Regs.advance_statSum, Regs.fold_statSum, Regs.storeBit_statSum, hsum]

/-- ACCEPT completes in both or in neither, and leaves the same in both. -/
theorem acceptRegs_congr (h : r.SameAcquisition r') (hok : acceptRegs c d r = .ok q) :
    ∃ q', acceptRegs c d r' = .ok q' ∧ r.SameAfter r' q q' := by
  obtain ⟨hstate, -, -, hbyte, -⟩ := id h
  by_cases hval : classifyAt c d = .invalid
  · rw [← Except.ok.inj ((acceptRegs_invalid hval r).symm.trans hok)]
    exact ⟨_, acceptRegs_invalid hval r', h.syncReset⟩
  obtain ⟨b, hb⟩ := exists_bit_of_valid hval
  by_cases hs : r.state = .acquiring
  · obtain ⟨i, hi, rfl⟩ := acceptRegs_takeSample hb hs hok
    exact ⟨_, acceptRegs_acquiring hb (hstate ▸ hs) (hbyte ▸ hi), h.takeSample i⟩
  · rw [← Except.ok.inj ((acceptRegs_search hb hs).symm.trans hok)]
    exact ⟨_, acceptRegs_search hb (hstate ▸ hs), h.search⟩

/-- However the two streams are merged, the acquisition goes as the producer's stream alone takes it. -/
theorem runOps_merge {p k m : List Instr} (hm : IsMerge p k m) : (∀ i ∈ p, i.duration? ≠ none) →
    (∀ i ∈ k, i.duration? = none) → ∀ {s u : State}, s.Inv → u.Inv → s.regs.SameAcquisition u.regs →
    ∃ t v, runOps m s = .next t ∧ runOps p u = .next v ∧ t.regs.SameAcquisition v.regs := by
  induction hm with
  | nil => exact fun _ _ s u _ _ h => ⟨s, u, rfl, rfl, h⟩
  | @fromFirst i p k m _ ih =>
    intro hp hk s u hs hu h
    obtain ⟨hi, hp'⟩ := List.forall_mem_cons.mp hp
    obtain ⟨d, hd⟩ := Option.ne_none_iff_exists'.mp hi
    obtain rfl := eq_accept_of_duration? hd
    obtain ⟨r, hr, hs'⟩ := RegsInv.acceptRegs_keeps (c := Config.current) hs (by decide) d
    obtain ⟨r', hr', hu'⟩ := RegsInv.acceptRegs_keeps (c := Config.current) hu (by decide) d
    obtain ⟨q, hq, hsame, -⟩ := acceptRegs_congr h hr
    obtain rfl := Except.ok.inj (hr'.symm.trans hq)
    rw [runOps_cons (exec_accept_ok hr), runOps_cons (exec_accept_ok hr')]
    exact ih hp' hk hs' hu' hsame
  | @fromSecond i p k m _ ih =>
    intro hp hk s u hs hu h
    obtain ⟨hi, hk⟩ := List.forall_mem_cons.mp hk
    obtain ⟨_, _, he⟩ := exec_query hi s
    rw [runOps_cons he]
    exact ih hp hk (RegsInv.queryRegs_keeps hs i) hu ((queryRegs_acquisition Config.current i s.regs).trans h)

/-! The answers of the other operations, in any two widths of the sums and counts. -/

/-- An operation other than ACCEPT answers by the flag, the packet, the minima, the maxima or the means, whichever it returns. -/
theorem execAt_query_congr {i : Instr} (hi : i.duration? = none) {s : State.At c} {s' : State.At (c.withWidths sw cw)}
    (hflag : i = .acq → s.regs.acquired = s'.regs.acquired)
    (hpkt : reads i .packet = true → s.regs.packet = s'.regs.packet)
    (hmin : i = .stmin → s.regs.statMin = s'.regs.statMin) (hmax : i = .stmax → s.regs.statMax = s'.regs.statMax)
    (hmean : i = .stmean → ∀ b, s.regs.mean? b = s'.regs.mean? b) :
    ∃ data st, execAt c i s = .next (s.respond (queryRegs c i s.regs) data st) ∧
      execAt (c.withWidths sw cw) i s' = .next (s'.respond (queryRegs (c.withWidths sw cw) i s'.regs) data st) := by
  cases i with
  | accept => cases hi
  | nop => exact ⟨_, _, rfl, rfl⟩
  | reserved w => exact ⟨_, _, rfl, rfl⟩
  | acq => exact ⟨_, _, rfl, by rw [hflag rfl]; rfl⟩
  | pkt => exact ⟨_, _, rfl, by rw [hpkt rfl]; rfl⟩
  | valid => exact ⟨_, _, rfl, by rw [hpkt rfl]; rfl⟩
  | id => exact ⟨_, _, rfl, by rw [hpkt rfl]; rfl⟩
  | hum => exact ⟨_, _, rfl, by rw [hpkt rfl]; rfl⟩
  | temp => exact ⟨_, _, rfl, by rw [hpkt rfl]; rfl⟩
  | temptxt => exact ⟨_, _, rfl, by rw [hpkt rfl]; rfl⟩
  | stmin => exact ⟨_, _, rfl, by rw [hmin rfl]; rfl⟩
  | stmax => exact ⟨_, _, rfl, by rw [hmax rfl]; rfl⟩
  | stmean =>
    refine ⟨_, _, rfl, ?_⟩
    rw [hmean rfl true, hmean rfl false]
    rfl

/-! The access matrix. -/

variable {a a' : Regs 16 8} {i : Instr} {g : Reg}

/-- An operation other than ACCEPT changes no register its column does not write. -/
theorem queryRegs_agree (hw : writes i g = false) (a : Regs 16 8) : (queryRegs Config.current i a).Agree g a := by
  obtain ⟨hstate, hhist, hpkt, hbyte, hbit, hmin, hmax, hcnt⟩ := queryRegs_acquisition Config.current i a
  cases g with
  | state => exact hstate
  | history => exact hhist
  | packet => exact hpkt
  | byteIdx => exact hbyte
  | bitIdx => exact hbit
  | statMin => exact hmin
  | statMax => exact hmax
  | statCnt => exact hcnt
  | acquired =>
    have hi : i ≠ .acq := by rintro rfl; cases hw
    exact (queryRegs_acquired_eq Config.current i a).trans (if_neg hi)
  | statSum =>
    have hi : i ≠ .stmean := by rintro rfl; cases hw
    exact queryRegs_statSum Config.current hi a

theorem writes_accept (d : Nat) (g : Reg) : writes (.accept d) g = true := by cases g <;> rfl

/-- ACQ writes the flag, STMEAN the sums, and no other operation but ACCEPT anything. -/
theorem writes_query (hi : i.duration? = none) (hw : writes i g = true) :
    (i = .acq ∧ g = .acquired) ∨ (i = .stmean ∧ g = .statSum) := by
  cases i with
  | accept => cases hi
  | acq =>
    refine .inl ⟨rfl, ?_⟩
    by_contra hg
    simp [writes, access, hg] at hw
  | stmean =>
    refine .inr ⟨rfl, ?_⟩
    by_contra hg
    by_cases hcnt : g = .statCnt <;> simp [writes, access, hg, hcnt] at hw
  | _ => cases g <;> cases hw

/-- What an operation other than ACCEPT writes depends on what its column reads. -/
theorem queryRegs_written (hi : i.duration? = none) (hw : writes i g = true)
    (h : ∀ g, reads i g = true → a.Agree g a') :
    (queryRegs Config.current i a).Agree g (queryRegs Config.current i a') := by
  obtain ⟨rfl, rfl⟩ | ⟨rfl, rfl⟩ := writes_query hi hw
  · rfl
  · have hsum : a.statSum = a'.statSum := h .statSum rfl
    have hcnt : a.statCnt = a'.statCnt := h .statCnt rfl
    change ((a.storeMean false).storeMean true).statSum = ((a'.storeMean false).storeMean true).statSum
    simp only [Regs.storeMeans_eq, Regs.meanSum, hsum, hcnt]

/-- An operation changes no register its column does not write. -/
theorem exec_agree {i : Instr} {s t : State} {g : Reg} (hexec : exec i s = .next t) (hw : writes i g = false) :
    t.regs.Agree g s.regs := by
  obtain ⟨r, d, st, rfl, ⟨-, rfl⟩ | ⟨e, rfl, -⟩⟩ := exec_cases hexec
  · exact queryRegs_agree hw s.regs
  · rw [writes_accept] at hw
    cases hw

/-- What an operation other than ACCEPT answers depends on what its column reads. -/
theorem exec_query_congr {s s' : State} (hi : i.duration? = none) (h : ∀ g, reads i g = true → s.regs.Agree g s'.regs) :
    ∃ data st, exec i s = .next (s.respond (queryRegs Config.current i s.regs) data st) ∧
      exec i s' = .next (s'.respond (queryRegs Config.current i s'.regs) data st) := by
  have hmean (him : i = .stmean) (b : Bool) : s.regs.mean? b = s'.regs.mean? b := by
    subst him
    have hsum : s.regs.statSum = s'.regs.statSum := h .statSum rfl
    have hcnt : s.regs.statCnt = s'.regs.statCnt := h .statCnt rfl
    simp only [Regs.mean?_eq, hsum, hcnt]
  rw [exec_eq_execAt, exec_eq_execAt]
  exact execAt_query_congr (c := Config.current) (sw := 16) (cw := 8) hi (fun hia => by subst hia; exact h .acquired rfl)
    (h .packet) (fun hin => by subst hin; exact h .statMin rfl) (fun hix => by subst hix; exact h .statMax rfl) hmean

/-- States that agree on what ACCEPT reads agree on everything but the flag. -/
theorem sameAcquisition_of_reads (h : ∀ g, reads (.accept d) g = true → a.Agree g a') :
    a.SameAcquisition a' ∧ a.statSum = a'.statSum :=
  ⟨⟨h .state rfl, h .history rfl, h .packet rfl, h .byteIdx rfl, h .bitIdx rfl, h .statMin rfl, h .statMax rfl,
    h .statCnt rfl⟩, h .statSum rfl⟩

theorem completesFrame_congr (h : r.SameAcquisition r') (i : Instr) : completesFrame i r = completesFrame i r' := by
  obtain ⟨hstate, -, -, hbyte, hbit, -⟩ := h
  unfold completesFrame
  rw [hstate, hbyte, hbit]

/-- ACCEPT writes the same into both, except that without a completion it leaves each its own flag. -/
theorem acceptRegs_agree {e e' : Regs 16 8} (h : a.SameAcquisition a') (hsum : a.statSum = a'.statSum)
    (hok : acceptRegs Config.current d a = .ok e) (hok' : acceptRegs Config.current d a' = .ok e') (g : Reg) :
    e.Agree g e' ∨ (e.Agree g a ∧ e'.Agree g a') := by
  obtain ⟨q, hq, ⟨hstate, hhist, hpkt, hbyte, hbit, hmin, hmax, hcnt⟩, hsum'⟩ := acceptRegs_congr h hok
  obtain rfl := Except.ok.inj (hok'.symm.trans hq)
  cases g with
  | state => exact .inl hstate
  | history => exact .inl hhist
  | packet => exact .inl hpkt
  | byteIdx => exact .inl hbyte
  | bitIdx => exact .inl hbit
  | statMin => exact .inl hmin
  | statMax => exact .inl hmax
  | statCnt => exact .inl hcnt
  | statSum => exact .inl (hsum' hsum)
  | acquired =>
    have hflag := acceptRegs_acquired_eq hok
    have hflag' := acceptRegs_acquired_eq hok'
    rw [← completesFrame_congr h] at hflag'
    cases hdone : completesFrame (.accept d) a with
    | true =>
      rw [hdone, Bool.or_true] at hflag hflag'
      exact .inl (hflag.trans hflag'.symm)
    | false =>
      rw [hdone, Bool.or_false] at hflag hflag'
      exact .inr ⟨hflag, hflag'⟩

end Machine

end Sys2Proof
end

section
/-! The statements of 10_state.md R29 and 20_memory.md R61 about what an operation reads and writes. -/

open Sys2Proof Sys2Proof.Machine

namespace Sys2Proof.Proofs.Access

/-- Settles O47: the consumer's operations leave the acquisition, and ACCEPT takes it no further from what they write. -/
theorem acquisitionIgnoresTheConsumer : Obligations.AcquisitionIgnoresTheConsumer :=
  fun _ _ _ _ hinv hm hp hk => runOps_merge hm hp hk hinv hinv ⟨rfl, rfl, rfl, rfl, rfl, rfl, rfl, rfl⟩

/-- Settles O50: ACCEPT is followed through its three cases, the other operations through what each reads and writes. -/
theorem accessMatrixHolds : Obligations.AccessMatrixHolds := by
  refine ⟨fun i s t g => exec_agree, fun i s s' t t' hreads hexec hexec' => ?_⟩
  cases hdur : i.duration? with
  | none =>
    obtain ⟨d, st, he, he'⟩ := exec_query_congr hdur hreads
    obtain rfl := Host.Outcome.next.inj (he.symm.trans hexec)
    obtain rfl := Host.Outcome.next.inj (he'.symm.trans hexec')
    refine ⟨rfl, rfl, fun g => ?_⟩
    cases hw : writes i g with
    | true => exact .inl (queryRegs_written hdur hw hreads)
    | false => exact .inr ⟨exec_agree hexec hw, exec_agree hexec' hw⟩
  | some d =>
    obtain rfl := eq_accept_of_duration? hdur
    obtain ⟨hsame, hsum⟩ := sameAcquisition_of_reads hreads
    obtain ⟨r, hok, rfl⟩ := exec_accept_cases hexec
    obtain ⟨r', hok', rfl⟩ := exec_accept_cases hexec'
    exact ⟨rfl, rfl, acceptRegs_agree hsame hsum hok hok'⟩

end Sys2Proof.Proofs.Access
end

section
/-! SUPPORT. Registers of other widths that hold the same values: the invariant bounds sums and counts below every admissible
width, so no operation tells the two apart (00_scope.md R7). -/

namespace Sys2Proof.Machine

section

variable {c : Params} {sw cw sw' cw' : Nat} {r : Regs sw cw} {r' : Regs sw' cw'}

/-- The invariant speaks of values and thresholds, not of widths. -/
theorem RegsInv.sameValues (h : RegsInv c r) (hsame : r.SameValues r') (sw'' cw'' : Nat) :
    RegsInv (c.withWidths sw'' cw'') r' := by
  obtain ⟨hstate, hflag, hhist, hpkt, hbyte, hbit, hmin, hmax, hstats⟩ := hsame
  obtain ⟨hsum0, hcnt0⟩ := hstats false
  obtain ⟨hsum1, hcnt1⟩ := hstats true
  simp only [PerClass.get_false, PerClass.get_true] at hsum0 hcnt0 hsum1 hcnt1
  constructor <;>
    simp only [← hstate, ← hflag, ← hhist, ← hpkt, ← hbyte, ← hbit, ← hmin, ← hmax, ← hsum0, ← hcnt0, ← hsum1, ← hcnt1]
  exacts [h.searching_history, h.acquiring_byte, h.acquiring_count, h.acquiring_started, h.acquiring_later,
    h.acquiring_current, h.acquiring_first, h.synced_sign, h.acquired_synced, h.counts_total, h.unsynced, h.range_low,
    h.range_high, h.unseen_high, h.sum_low, h.sum_high]

/-! The consumer's operations. -/

theorem Regs.SameValues.mean? (h : r.SameValues r') (b : Bool) : r.mean? b = r'.mean? b := by
  obtain ⟨-, -, -, -, -, -, -, -, hstats⟩ := h
  obtain ⟨hsum, hcnt⟩ := hstats b
  rw [Regs.mean?_eq, Regs.mean?_eq, hsum, hcnt]

theorem Regs.SameValues.meanSum (h : r.SameValues r') (b : Bool) : (r.meanSum b).toNat = (r'.meanSum b).toNat := by
  obtain ⟨-, -, -, -, -, -, -, -, hstats⟩ := h
  obtain ⟨hsum, hcnt⟩ := hstats b
  by_cases h0 : (r.statCnt.get b).toNat = 0
  · rw [Regs.meanSum, Regs.meanSum, if_pos h0, if_pos (hcnt ▸ h0), hsum]
  · rw [Regs.meanSum_toNat h0, Regs.meanSum_toNat (hcnt ▸ h0), hsum, hcnt]

theorem Regs.SameValues.storeMeans (h : r.SameValues r') :
    ((r.storeMean false).storeMean true).SameValues ((r'.storeMean false).storeMean true) := by
  have hmean := h.meanSum
  obtain ⟨hstate, hflag, hhist, hpkt, hbyte, hbit, hmin, hmax, hstats⟩ := h
  rw [Regs.storeMeans_eq, Regs.storeMeans_eq]
  refine ⟨hstate, hflag, hhist, hpkt, hbyte, hbit, hmin, hmax, fun k => ⟨?_, (hstats k).2⟩⟩
  cases k with
  | false => exact hmean false
  | true => exact hmean true

theorem Regs.SameValues.queryRegs (h : r.SameValues r') (i : Instr) (sw'' cw'' : Nat) :
    (queryRegs c i r).SameValues (queryRegs (c.withWidths sw'' cw'') i r') := by
  cases i with
  | acq =>
    obtain ⟨hstate, -, hrest⟩ := h
    exact ⟨hstate, rfl, hrest⟩
  | stmean =>
    unfold Machine.queryRegs
    cases c.meanMutates with
    | true => exact h.storeMeans
    | false => exact h
  | _ => exact h

end

variable {c : Params} {sw cw : Nat}

/-! ACCEPT. -/

variable {r q : Regs.At c} {r' q' : Regs.At (c.withWidths sw cw)} {d : Nat} {b : Bool}

/-- The sums and counts after the first sample of a frame fit every admissible width. -/
theorem startFrame_sums (hc : c.Admissible) (hd : d ≤ c.loMax) (r : Regs.At c) (k : Bool) :
    ((r.startFrame c d).statSum.get k).toNat = (if k then 0 else d) ∧
      ((r.startFrame c d).statCnt.get k).toNat = if k then 0 else 1 := by
  obtain ⟨-, -, -, -, hlo, hsum, -, -, -, hcnt⟩ := hc
  have hone : 1 < 2 ^ c.cntw := Nat.one_lt_two_pow (by omega)
  rw [Regs.startFrame, Regs.syncMatch_low _ _ _ hd hlo]
  cases k with
  | false => simp [Nat.mod_eq_of_lt (show d < 2 ^ c.sumw by omega), Nat.mod_eq_of_lt hone]
  | true => simp

/-- A frame starts with the same values. -/
theorem Regs.SameValues.startFrame (h : r.SameValues r') (hc : c.Admissible)
    (hc' : (c.withWidths sw cw).Admissible) (hd : d ≤ c.loMax) :
    (r.startFrame c d).SameValues (r'.startFrame (c.withWidths sw cw) d) := by
  obtain ⟨-, hflag, -⟩ := h
  refine ⟨rfl, hflag, rfl, rfl, rfl, rfl, rfl, rfl, fun k => ?_⟩
  obtain ⟨hsum, hcnt⟩ := startFrame_sums hc hd r k
  obtain ⟨hsum', hcnt'⟩ := startFrame_sums hc' hd r' k
  exact ⟨hsum.trans hsum'.symm, hcnt.trans hcnt'.symm⟩

/-- A sample in ACQUIRING is taken the same: nothing wraps in either. -/
theorem Regs.SameValues.takeSample (h : r.SameValues r') (hinv : RegsInv c r) (hc : c.Admissible)
    (hc' : (c.withWidths sw cw).Admissible) (hs : r.state = .acquiring) (hb : (classifyAt c d).bit? = some b)
    {i : Fin 5} (hi : i.val = r.byteIdx.toNat) : (r.takeSample i d b).SameValues (r'.takeSample i d b) := by
  have hinv' : RegsInv (c.withWidths sw cw) r' := hinv.sameValues h sw cw
  obtain ⟨hstate, hflag, hhist, hpkt, hbyte, hbit, hmin, hmax, hstats⟩ := h
  obtain ⟨hpos, hnext, hdone⟩ := r.takeSample_position (d := d) (b := b) hi hs
  obtain ⟨hpos', hnext', hdone'⟩ := r'.takeSample_position (d := d) (b := b) (hbyte ▸ hi) (hstate ▸ hs)
  obtain ⟨hownMin, hownMax, hownSum, hownCnt⟩ := hinv.takeSample_own hc hs hb i
  obtain ⟨hownMin', hownMax', hownSum', hownCnt'⟩ := hinv'.takeSample_own hc' (hstate ▸ hs) hb i
  obtain ⟨hotherMin, hotherMax, hotherSum, hotherCnt⟩ := r.takeSample_other (d := d) (b := b) i
  obtain ⟨hotherMin', hotherMax', hotherSum', hotherCnt'⟩ := r'.takeSample_other (d := d) (b := b) i
  rw [← hbyte, ← hbit] at hpos' hnext' hdone'
  have hlt := (r.takeSample i d b).bitIdx.isLt
  have hlt' := (r'.takeSample i d b).bitIdx.isLt
  refine ⟨hnext.trans hnext'.symm, ?_, ?_, Packet.ext_read fun j => ?_, BitVec.eq_of_toNat_eq (by omega),
    BitVec.eq_of_toNat_eq (by omega), PerClass.ext_get fun k => ?_, PerClass.ext_get fun k => ?_, fun k => ?_⟩
  · rw [hdone, hdone', hflag]
  · rw [Regs.takeSample_history, Regs.takeSample_history, hhist]
  · rw [Regs.takeSample_read, Regs.takeSample_read, hpkt]
  · by_cases hk : k = b
    · rw [hk, ← BitVec.toNat_inj, hownMin, hownMin', hmin]
    · rw [Bool.eq_not.mpr hk, hotherMin, hotherMin', hmin]
  · by_cases hk : k = b
    · rw [hk, ← BitVec.toNat_inj, hownMax, hownMax', hmax]
    · rw [Bool.eq_not.mpr hk, hotherMax, hotherMax', hmax]
  · obtain ⟨hsum, hcnt⟩ := hstats k
    by_cases hk : k = b
    · subst hk
      rw [hownSum, hownSum', hownCnt, hownCnt', hsum, hcnt]
      exact ⟨rfl, rfl⟩
    · obtain rfl := Bool.eq_not.mpr hk
      rw [hotherSum, hotherSum', hotherCnt, hotherCnt']
      exact ⟨hsum, hcnt⟩

/-- ACCEPT leaves the same values. -/
theorem acceptRegs_sameValues (h : r.SameValues r') (hinv : RegsInv c r) (hc : c.Admissible)
    (hc' : (c.withWidths sw cw).Admissible) (hok : acceptRegs c d r = .ok q)
    (hok' : acceptRegs (c.withWidths sw cw) d r' = .ok q') : q.SameValues q' := by
  have hinv' : RegsInv (c.withWidths sw cw) r' := hinv.sameValues h sw cw
  obtain ⟨hstate, hrest⟩ := id h
  by_cases hval : classifyAt c d = .invalid
  · obtain rfl := Except.ok.inj ((acceptRegs_invalid hval r).symm.trans hok)
    obtain rfl := Except.ok.inj ((acceptRegs_invalid (c := c.withWidths sw cw) hval r').symm.trans hok')
    exact ⟨rfl, hrest⟩
  by_cases hs : r.state = .acquiring
  · obtain ⟨b, hb⟩ := exists_bit_of_valid hval
    obtain ⟨i, hi, rfl⟩ := acceptRegs_takeSample hb hs hok
    obtain ⟨-, -, -, hbyte, -⟩ := hrest
    have hok'' := acceptRegs_acquiring (c := c.withWidths sw cw) hb (hstate ▸ hs) (hbyte ▸ hi)
    obtain rfl := Except.ok.inj (hok''.symm.trans hok')
    exact h.takeSample hinv hc hc' hs hb hi
  have hs' : r'.state ≠ .acquiring := hstate ▸ hs
  match hd : classifyAt c d with
  | .invalid => exact absurd hd hval
  | .high =>
    obtain rfl := Except.ok.inj ((hinv.acceptRegs_high hs hd).symm.trans hok)
    obtain rfl := Except.ok.inj ((hinv'.acceptRegs_high hs' hd).symm.trans hok')
    obtain ⟨hflag, -, hrest⟩ := hrest
    exact ⟨rfl, hflag, rfl, hrest⟩
  | .low =>
    obtain rfl := Except.ok.inj ((hinv.acceptRegs_low hs hd).symm.trans hok)
    obtain rfl := Except.ok.inj ((hinv'.acceptRegs_low hs' hd).symm.trans hok')
    obtain ⟨-, hgap, -⟩ := id hc
    exact h.startFrame hc hc' ((classifyAt_low hgap).mp hd).2

end Sys2Proof.Machine
end

section
/-! The statement of 00_scope.md R7. -/

open Sys2Proof Sys2Proof.Machine

namespace Sys2Proof.Proofs.Widths

/-- Settles O55: both meet the invariant, so both complete, and every operation computes with values that fit both widths. -/
theorem widthsDoNotMatter : Obligations.WidthsDoNotMatter := by
  intro c sw cw hc hc' i s s' hinv h
  cases hdur : i.duration? with
  | none =>
    obtain ⟨-, hflag, -, hpkt, -, -, hmin, hmax, -⟩ := id h
    obtain ⟨d, st, he, he'⟩ := execAt_query_congr hdur (fun _ => hflag) (fun _ => hpkt) (fun _ => hmin) (fun _ => hmax)
      fun _ => h.mean?
    exact ⟨_, _, he, he', h.queryRegs i sw cw, rfl, rfl⟩
  | some d =>
    obtain rfl := eq_accept_of_duration? hdur
    obtain ⟨q, hok, -⟩ := hinv.acceptRegs_keeps hc d
    obtain ⟨q', hok', -⟩ := RegsInv.acceptRegs_keeps (hinv.sameValues h sw cw) hc' d
    exact ⟨_, _, execAt_accept_ok hok, execAt_accept_ok hok', acceptRegs_sameValues h hinv hc hc' hok hok', rfl, rfl⟩

end Sys2Proof.Proofs.Widths
end
